-- ==== Sys2Proof/Word.lean ====
section
/-! DEFINITION. The bit vectors of the spec (R5, R7): bytes of the source, command words, response data and
response beats. Everything the spec counts rather than masks (the width `r`, the bit count `n`) is a number elsewhere. -/

namespace Sys2Proof

/-- A byte of the source, `BYTE_W = 8` (R5). Bit 7 is the most significant (R7). -/
abbrev Byte := BitVec 8

/-- The data field of a response, `DATA_W = 32` (R5, R58). -/
abbrev Data := BitVec 32

/-- A command word, `CMD_W = 10` (R5, R51). -/
abbrev CmdWord := BitVec 10

/-- A response beat as it crosses the RSP port, 35 bits (R56). -/
abbrev BeatWord := BitVec 35

end Sys2Proof
end

