-- ==== Sys2Proof/Config.lean ====
section
/-! DEFINITION. The implementation parameters of rule R5 that the operations test against, and the one free value of
the model: the bytes of a source that never ends. -/

namespace Sys2Proof.Config

/-- `CHAR_W_MIN` (R5): the narrowest legal `RDCHARW`. -/
def charWMin : Nat := 1

/-- `CHAR_W_MAX` (R5): the widest legal `RDCHARW`. -/
def charWMax : Nat := 16

/-- `INT_W_MIN` (R5): the narrowest legal `RDINTW`. -/
def intWMin : Nat := 1

/-- `INT_W_MAX` (R5): the widest legal `RDINTW`. -/
def intWMax : Nat := 32

/-- `R_W` (R5, R53): the width of the `r` field at the CMD port. D6 leaves any value of 6 or more open. -/
def rWidth : Nat := 6

/-- FREE VALUE (entry 5). Byte `index` of the endless source named `stream`: D23 leaves the source open, "finite or
infinite" (R30, R114). It has no body, so nothing can be proved of its value. -/
opaque endlessByte (stream index : Nat) : Byte

end Sys2Proof.Config
end

