-- ==== Sys2Proof/Syntax.lean ====
section
/-! DEFINITION. The instructions: one constructor for each row of the opcode table (R52). The only operand in the whole
block is the width `r` (R13). -/

namespace Sys2Proof

/-- The nine public operations (R52). `r` is the number the caller asks for, an unbounded software integer in JE; the
CMD port carries 0 to 63 of it (R53, entry 11; WellFormed). -/
inductive Instr where
  /-- EXISTS, `exists()` (R70) -/
  | existsQ
  /-- ISEMPTY, `isEmpty()` (R71) -/
  | isEmpty
  /-- RDBIT, `readBit()` (R80) -/
  | rdBit
  /-- RDCHAR, `readChar()` (R90) -/
  | rdChar
  /-- RDCHARW r, `readChar(r)` (R93) -/
  | rdCharW (r : Nat)
  /-- RDSHORT, `readShort()` (R100) -/
  | rdShort
  /-- RDINT, `readInt()` (R101) -/
  | rdInt
  /-- RDINTW r, `readInt(r)` (R102) -/
  | rdIntW (r : Nat)
  /-- RDSTR, `readString()` (R110) -/
  | rdStr
deriving DecidableEq, Repr

end Sys2Proof
end

