-- ==== Sys2Proof/WellFormed.lean ====
section
/-! DEFINITION. Which instructions the CMD port can carry: the width operand fits its 6-bit field (R51, R53). A width
outside an operation's legal range IS well formed: it is a legal encoding that the operation answers with WIDTH_ERR. -/

namespace Sys2Proof

/-- R53: `r` is 0 to 63, with no masking to the legal range. -/
def Instr.wf : Instr → Bool
  | .existsQ => true
  | .isEmpty => true
  | .rdBit => true
  | .rdChar => true
  | .rdCharW r => r < 2 ^ Config.rWidth
  | .rdShort => true
  | .rdInt => true
  | .rdIntW r => r < 2 ^ Config.rWidth
  | .rdStr => true

end Sys2Proof
end

