-- ==== Sys2Proof/Decode.lean ====
section
/-! DEFINITION. Decoding and encoding of command words (R51 to R54, R62, R63), the opcode table's rows, and the textual
form of commands (R55). Decoding is total: every 10-bit word is an instruction or a reserved word, named. -/

namespace Sys2Proof

/-- What a command word is (R52, R54). -/
inductive Decoded where
  /-- opcode 0 to 8 -/
  | instr (i : Instr)
  /-- opcode 9 to 15, reserved: answered with ILLEGAL_CMD (R54, R122) -/
  | reserved (op : BitVec 4)
deriving DecidableEq, Repr

/-- `cmd[9:6]` (R51). -/
def CmdWord.op (w : CmdWord) : BitVec 4 := w.extractLsb' 6 4

/-- `r = zext(cmd[5:0])`, 0 to 63: no scaling, bias or sign (R53). -/
def CmdWord.r (w : CmdWord) : Nat := (w.extractLsb' 0 6).toNat

/-- R52: `op <- w[9:6]; r <- w[5:0]`, then dispatch on `op`. The seven operations without a width ignore `r` (R54 b). -/
def decode (w : CmdWord) : Decoded :=
  match (CmdWord.op w).toNat with
  | 0 => .instr .existsQ
  | 1 => .instr .isEmpty
  | 2 => .instr .rdBit
  | 3 => .instr .rdChar
  | 4 => .instr (.rdCharW (CmdWord.r w))
  | 5 => .instr .rdShort
  | 6 => .instr .rdInt
  | 7 => .instr (.rdIntW (CmdWord.r w))
  | 8 => .instr .rdStr
  | _ => .reserved (CmdWord.op w)

/-- The opcode column of R52. -/
def Instr.opcode : Instr → BitVec 4
  | .existsQ => 0
  | .isEmpty => 1
  | .rdBit => 2
  | .rdChar => 3
  | .rdCharW _ => 4
  | .rdShort => 5
  | .rdInt => 6
  | .rdIntW _ => 7
  | .rdStr => 8

/-- The `r` field of the canonical encoding: 0 where the operation takes no width (R54 b). -/
def Instr.rField : Instr → BitVec 6
  | .rdCharW r => BitVec.ofNat 6 r
  | .rdIntW r => BitVec.ofNat 6 r
  | .existsQ => 0
  | .isEmpty => 0
  | .rdBit => 0
  | .rdChar => 0
  | .rdShort => 0
  | .rdInt => 0
  | .rdStr => 0

/-- The two operations that take a width (R51: "used by RDCHARW and RDINTW only"). -/
def Instr.usesWidth : Instr → Bool
  | .rdCharW _ => true
  | .rdIntW _ => true
  | .existsQ => false
  | .isEmpty => false
  | .rdBit => false
  | .rdChar => false
  | .rdShort => false
  | .rdInt => false
  | .rdStr => false

/-- The canonical command word `{op, r}` (R51). -/
def encode (i : Instr) : CmdWord := i.opcode ++ i.rField

/-- The host's view of the decoder. A command word has 10 bits and crosses the CMD port in one transfer, so the bits of
`w` below `nbits` are the word, and a number of more than 10 bits is no command word (entry 14). -/
def decodeTableWord (nbits w : Nat) : Option Instr :=
  let v := w % 2 ^ nbits
  if v < 1024 then
    match decode (BitVec.ofNat 10 v) with
    | .instr i => some i
    | .reserved _ => none
  else none

/-- A row of R52's opcode map: the mnemonic, `match` and `mask`. -/
structure OpcodeRow where
  mnemonic : String
  matchBits : CmdWord
  mask : CmdWord
deriving DecidableEq, Repr

/-- "A command word `w` selects the row whose `(w & mask) == match`" (R52). -/
def OpcodeRow.selects (row : OpcodeRow) (w : CmdWord) : Bool := w &&& row.mask == row.matchBits

/-- R52's table, the nine operations. -/
def opcodeRows : List OpcodeRow :=
  [ ⟨"EXISTS", 0x000, 0x3C0⟩, ⟨"ISEMPTY", 0x040, 0x3C0⟩, ⟨"RDBIT", 0x080, 0x3C0⟩,
    ⟨"RDCHAR", 0x0C0, 0x3C0⟩, ⟨"RDCHARW", 0x100, 0x3C0⟩, ⟨"RDSHORT", 0x140, 0x3C0⟩,
    ⟨"RDINT", 0x180, 0x3C0⟩, ⟨"RDINTW", 0x1C0, 0x3C0⟩, ⟨"RDSTR", 0x200, 0x3C0⟩ ]

/-- R52's last row, `0x240` to `0x3C0`: the seven reserved opcodes. -/
def reservedRows : List OpcodeRow :=
  [0x240, 0x280, 0x2C0, 0x300, 0x340, 0x380, 0x3C0].map fun m => ⟨"(reserved)", m, 0x3C0⟩

/-- The mnemonic column of R52. -/
def Instr.mnemonic : Instr → String
  | .existsQ => "EXISTS"
  | .isEmpty => "ISEMPTY"
  | .rdBit => "RDBIT"
  | .rdChar => "RDCHAR"
  | .rdCharW _ => "RDCHARW"
  | .rdShort => "RDSHORT"
  | .rdInt => "RDINT"
  | .rdIntW _ => "RDINTW"
  | .rdStr => "RDSTR"

/-- One line of a command list (R55): the mnemonic in capitals and, for the two that take one, the width in decimal. -/
def Instr.text (i : Instr) : List Char :=
  match i with
  | .rdCharW r => i.mnemonic.toList ++ ' ' :: Nat.toDigits 10 r
  | .rdIntW r => i.mnemonic.toList ++ ' ' :: Nat.toDigits 10 r
  | .existsQ => i.mnemonic.toList
  | .isEmpty => i.mnemonic.toList
  | .rdBit => i.mnemonic.toList
  | .rdChar => i.mnemonic.toList
  | .rdShort => i.mnemonic.toList
  | .rdInt => i.mnemonic.toList
  | .rdStr => i.mnemonic.toList

/-- A decimal number, most significant digit first. -/
def decimal : Nat → List Char → Option Nat
  | x, [] => some x
  | x, c :: cs => if c.isDigit then decimal (10 * x + (c.toNat - '0'.toNat)) cs else none

/-- A line cut at its spaces, empty pieces dropped. -/
def pieces : List Char → List Char → List (List Char)
  | [], piece => if piece.isEmpty then [] else [piece]
  | c :: cs, piece =>
    if c = ' ' then (if piece.isEmpty then [] else [piece]) ++ pieces cs [] else pieces cs (piece ++ [c])

/-- The instruction a line of a command list names (R55): `;` starts a comment; a width is a decimal number 0 to 63. -/
def parseLine (line : List Char) : Option Instr :=
  match pieces (line.takeWhile (· ≠ ';')) [] with
  | [m] =>
    [Instr.existsQ, .isEmpty, .rdBit, .rdChar, .rdShort, .rdInt, .rdStr].find? fun i => i.mnemonic.toList == m
  | [m, d] =>
    match decimal 0 d with
    | some r => [Instr.rdCharW r, .rdIntW r].find? fun i => i.wf && i.mnemonic.toList == m
    | none => none
  | _ => none

end Sys2Proof
end

