-- ==== Sys2Proof/Machine/State.lean ====
section
/-! DEFINITION. The state as plain data: the block's registers (R10 to R12, R17), and what the spec calls the parameters
of its step (R24), which a step from a state to a state has to find in the state: the byte source, the caller's and the
reset pin's next actions, and the log of what crossed the ports (entry 2). -/

namespace Sys2Proof.Machine

/-- The 257 values of `currentByte` (R10), and the two answers of a pull (R30): a byte, or EOS. -/
inductive ByteOrEos where
  | byte (b : Byte)
  | eos
deriving DecidableEq, Repr

/-- The response status (R57). -/
inductive Status where
  | ok
  | eosErr
  | widthErr
  | illegalCmd
deriving DecidableEq, Repr

/-- The error kinds (R120 to R122). -/
inductive ErrKind where
  | endOfStream
  | invalidWidth
  | illegalCommand
deriving DecidableEq, Repr

/-- One response beat (R56). -/
structure Beat where
  last : Bool
  status : Status
  data : Data
deriving DecidableEq, Repr

/-- One transaction on a port (R50, R61). -/
inductive PortEvent where
  /-- a CMD transfer: the word is accepted -/
  | cmd (w : CmdWord)
  /-- a SRC request and its answer: one pull (R60) -/
  | pull (a : ByteOrEos)
  /-- a RSP beat, taken by the caller -/
  | beat (b : Beat)
deriving DecidableEq, Repr

/-- What a source does once its listed bytes are delivered (R30, R31, R114; entry 5). -/
inductive SourceEnd where
  /-- it answers EOS to this and every later pull (R30): end of data or an I/O failure, which R32 makes the same -/
  | eos
  /-- it never answers (R150) -/
  | silent
  /-- it goes on for ever: its next byte is byte `index` of the free stream `stream` (R114, D23) -/
  | endless (stream index : Nat)
deriving DecidableEq, Repr

/-- The byte source attached to the SRC port: what it will still answer (R30). -/
structure Source where
  bytes : List Byte
  ending : SourceEnd
deriving DecidableEq, Repr

/-- A pulse on `rst` (R140, R143): the strap as sampled at release, and the source the environment attaches, if it
attaches another (`none`: "continuing from wherever that source now is", R142). -/
structure ResetPulse where
  srcOk : Bool
  attach : Option Source
deriving DecidableEq, Repr

/-- What the outside does next at the CMD port and the reset pin. -/
inductive Input where
  /-- the caller presents a command and lets it finish -/
  | cmd (w : CmdWord)
  /-- reset while the block is idle -/
  | reset (p : ResetPulse)
  /-- reset before the priming pull is answered (R142 "at any time"); on an idle block it is a plain reset -/
  | resetInPriming (p : ResetPulse)
  /-- the caller presents a command and reset hits it after `events` of its port transactions (R142) -/
  | resetInCmd (w : CmdWord) (events : Nat) (p : ResetPulse)
deriving DecidableEq, Repr

/-- The state of the block and of what it is connected to. -/
structure State where
  /-- lifecycle state Priming: reset is released and the priming pull is not done (R17, R141) -/
  priming : Bool
  /-- `currentByte` (R10) -/
  cur : ByteOrEos
  /-- `bitsRemaining`, "always in [0, 8]" (R11, R18 item 1) -/
  n : Fin 9
  /-- the binding flag (R12) -/
  bound : Bool
  /-- the attached byte source (R30) -/
  src : Source
  /-- what the caller and the reset pin do next, oldest first -/
  inputs : List Input
  /-- every port transaction since reset was last released, oldest first -/
  ports : List PortEvent
  /-- the same logs of earlier bindings, oldest first -/
  past : List (List PortEvent)
deriving DecidableEq, Repr

/-- Why the machine goes no further. None of these is an error RESULT: those are next states (R126). -/
inductive Fault where
  /-- Raised by a pull that the source never answers, in priming or inside a command: "the block stays in Priming or
  inside the command for ever" (R150, U3 `stuck`). `ports` is the log at the hang. Safe: nothing more happens. -/
  | sourceSilent (ports : List PortEvent)
  /-- Raised by RDSTR on a source that never ends: "RDSTR never completes" (R114, U16). Safe. -/
  | stringEndless
  /-- Raised by a read that finds a byte in `cur` and `n = 0`, which "cannot occur at entry" (R90 d, R80 e, R18 item 2);
  no state that meets `State.Inv` raises it. Safe (entry 15). -/
  | brokenCursor
deriving DecidableEq, Repr

/-- Why an instruction has no meaning. -/
inductive Refusal where
  /-- Raised only by an arm of `exec` whose instruction is not modelled. Safe. No arm raises it today. -/
  | notModelled (mnemonic : String)
deriving DecidableEq, Repr

/-- The block at the moment reset is released (R23 first column, R140), with strap `srcOk`, source `src` attached, and
nothing yet presented. -/
def State.atReset (srcOk : Bool) (src : Source) : State where
  priming := true
  cur := .eos
  n := 0
  bound := srcOk
  src := src
  inputs := []
  ports := []
  past := []

/-- R23: the machine right after reset. The spec leaves the strap and the source to the environment (R144).
DESIGN CHOICE (entry 3, unsafe): the strap is 1 and the source has no bytes. -/
def State.reset : State := State.atReset true ⟨[], .eos⟩

end Sys2Proof.Machine
end

