-- ==== Sys2Proof/Machine/Flags.lean ====
section
/-! DEFINITION. The two conditions (R16), the lifecycle state (R17) and the register-level image (R22): all of them
functions of the registers. The block has no arithmetic flags. -/

namespace Sys2Proof.Machine

/-- empty: `cur == EOS` (R16). -/
def State.isEmpty (s : State) : Bool :=
  match s.cur with
  | .eos => true
  | .byte _ => false

/-- byte-aligned: `n == 8` (R38). -/
def State.byteAligned (s : State) : Bool := s.n == 8

/-- The three lifecycle states (R17). -/
inductive Lifecycle where
  | priming
  | active
  | exhausted
deriving DecidableEq, Repr

/-- R17: a function of the registers and of whether priming has finished. -/
def State.lifecycle (s : State) : Lifecycle :=
  if s.priming then .priming else if s.isEmpty then .exhausted else .active

/-- `cur_eos` (R22). -/
def State.curEos (s : State) : BitVec 1 := BitVec.ofBool s.isEmpty

/-- `cur_byte`: `0x00` when `cur_eos` is set (R22). -/
def State.curByte (s : State) : Byte :=
  match s.cur with
  | .eos => 0
  | .byte b => b

/-- The 4-bit register `n` (R22). -/
def State.nReg (s : State) : BitVec 4 := BitVec.ofNat 4 s.n.val

/-- "The whole register state is 14 bits" (R22): `{cur_eos, cur_byte, n, bound}`. The order is the model's (entry 12). -/
def State.registers (s : State) : BitVec 14 :=
  s.curEos ++ s.curByte ++ s.nReg ++ BitVec.ofBool s.bound

end Sys2Proof.Machine
end

