-- ==== Sys2Proof/Machine/Operands.lean ====
section
/-! DEFINITION. The width operand's ranges (R93, R102), and the response format: status codes (R57), beats as words
(R56), and a command's result as the caller reads it from its beats (R7, R59). -/

namespace Sys2Proof.Machine

/-- R121: a character width is legal in [1, 16]. -/
def charWidthOk (r : Nat) : Bool := Config.charWMin ≤ r && r ≤ Config.charWMax

/-- R121: an integer width is legal in [1, 32]. -/
def intWidthOk (r : Nat) : Bool := Config.intWMin ≤ r && r ≤ Config.intWMax

/-- R57. -/
def Status.code : Status → BitVec 2
  | .ok => 0
  | .eosErr => 1
  | .widthErr => 2
  | .illegalCmd => 3

/-- R57 read the other way: the four codes are all of the two bits. -/
def Status.ofCode (c : BitVec 2) : Status :=
  match c.toNat with
  | 0 => .ok
  | 1 => .eosErr
  | 2 => .widthErr
  | _ => .illegalCmd

/-- The status each error kind is answered with (R120 to R122). -/
def ErrKind.status : ErrKind → Status
  | .endOfStream => .eosErr
  | .invalidWidth => .widthErr
  | .illegalCommand => .illegalCmd

/-- `{last, status, data}` (R56). -/
def Beat.encode (b : Beat) : BeatWord := BitVec.ofBool b.last ++ b.status.code ++ b.data

/-- The fields of a beat word (R56). -/
def Beat.decode (w : BeatWord) : Beat where
  last := w.getLsbD 34
  status := Status.ofCode (w.extractLsb' 32 2)
  data := w.extractLsb' 0 32

/-- The one beat of a successful command, and RDSTR's final beat with `data = 0` (R56, R58, R59). -/
def okBeat (d : Data) : Beat := ⟨true, .ok, d⟩

/-- The final beat of a failed command: `data` is `0x00000000` (R58). -/
def errBeat (k : ErrKind) : Beat := ⟨true, k.status, 0⟩

/-- RDSTR's beat for one character: `last = 0`, `data = zext_32(c)` (R59). -/
def charBeat (c : Byte) : Beat := ⟨false, .ok, c.setWidth 32⟩

/-- `ok(v)` with a number or a sequence, or `err(kind)` (R7). -/
inductive Result where
  | value (d : Data)
  | chars (cs : List Byte)
  | error (k : ErrKind)
deriving DecidableEq, Repr

/-- The result a command's beats stand for (R59). The data beats before a final error beat are void. A final OK beat
after data beats ends RDSTR's sequence; alone, it carries the value. -/
def resultOf : List Beat → List Byte → Option Result
  | [], _ => none
  | b :: bs, cs =>
    if b.last then
      match b.status with
      | .ok => if cs.isEmpty then some (.value b.data) else some (.chars cs)
      | .eosErr => some (.error .endOfStream)
      | .widthErr => some (.error .invalidWidth)
      | .illegalCmd => some (.error .illegalCommand)
    else resultOf bs (cs ++ [b.data.setWidth 8])

end Sys2Proof.Machine
end

