-- ==== Sys2Proof/Machine/Ops.lean ====
section
/-! DEFINITION. The operations every meaning is built from: the pull (R30), the refill (R34), one bit (R80), one
character (R90), the accumulating loops over them (R93, R100 to R102), RDSTR's loop (R110), the response (R56 to R59),
and the one way an error is delivered (R126). There is no return from an error (R129). -/

namespace Sys2Proof.Machine

/-- How a piece of pseudocode ends (R7): `return v`; `raise kind`, with the state writes and pulls already made kept; or
it never ends. -/
inductive Res (α : Type) where
  | ok (v : α) (s : State)
  | err (k : ErrKind) (s : State)
  | stuck (f : Fault)
deriving DecidableEq, Repr

/-- Sequencing: a callee's `raise` is propagated unchanged (R7). -/
def Res.bind {α β : Type} (r : Res α) (f : α → State → Res β) : Res β :=
  match r with
  | .ok v s => f v s
  | .err k s => .err k s
  | .stuck e => .stuck e

/-- A port transaction happens. -/
def State.log (s : State) (e : PortEvent) : State := { s with ports := s.ports ++ [e] }

/-- What the source answers next, and the source after that answer (R30); `none` if it never answers (R150). -/
def Source.next (src : Source) : Option (ByteOrEos × Source) :=
  match src.bytes, src.ending with
  | b :: bs, e => some (.byte b, ⟨bs, e⟩)
  | [], .eos => some (.eos, src)
  | [], .silent => none
  | [], .endless stream index => some (.byte (Config.endlessByte stream index), ⟨[], .endless stream (index + 1)⟩)

/-- `SrcNext()` (R30): one pull. On a source that never answers the block waits for ever (R31, R150). -/
def srcNext (s : State) : Res ByteOrEos :=
  match s.src.next with
  | some (a, src) => .ok a ({ s with src := src }.log (.pull a))
  | none => .stuck (.sourceSilent s.ports)

/-- What `Refill()` does with the pull's answer (R34). -/
def State.load (s : State) (a : ByteOrEos) : State :=
  match a with
  | .eos => { s with cur := .eos, n := 0 }
  | .byte b => { s with cur := .byte b, n := 8 }

/-- `Refill()` (R34): exactly one pull. -/
def refill (s : State) : Res Unit :=
  (srcNext s).bind fun a s => .ok () (s.load a)

/-- `n <- m`. -/
def State.setN (s : State) (m : Fin 9) : State := { s with n := m }

/-- `ReadBit()` (R80): the next most significant unconsumed bit, with the eager refill. -/
def readBit (s : State) : Res Bool :=
  match s.cur with
  | .eos => .err .endOfStream s
  | .byte b =>
    if s.n = 0 then .stuck .brokenCursor
    else
      let s := s.setN (s.n - 1)
      let bit := b.getLsbD s.n.val
      if s.n = 0 then (refill s).bind fun _ s => .ok bit s else .ok bit s

/-- `ReadChar()` (R90): fast path when byte-aligned, else the slow path, whose high part is the `n` unconsumed bits
(R91). -/
def readChar (s : State) : Res Byte :=
  match s.cur with
  | .eos => .err .endOfStream s
  | .byte b =>
    if s.n = 0 then .stuck .brokenCursor
    else if s.byteAligned then (refill s).bind fun _ s => .ok b s
    else
      let oldN := s.n
      let x : Byte := b <<< (8 - oldN.val)
      (refill s).bind fun _ s =>
        match s.cur with
        | .eos => .err .endOfStream s
        | .byte c => .ok (x ||| (c >>> oldN.val)) (s.setN oldN)

/-- `repeat k times: b <- ReadBit(); x <- (x << 1) | zext(b)` on a `w`-bit accumulator (R93, R102). -/
def readBits {w : Nat} : Nat → BitVec w → State → Res (BitVec w)
  | 0, x, s => .ok x s
  | k + 1, x, s => (readBit s).bind fun b s => readBits k (x <<< 1 ||| (BitVec.ofBool b).setWidth w) s

/-- `repeat k times: c <- ReadChar(); x <- (x << 8) | zext(c)` on a `w`-bit accumulator (R100, R101). -/
def readChars {w : Nat} : Nat → BitVec w → State → Res (BitVec w)
  | 0, x, s => .ok x s
  | k + 1, x, s => (readChar s).bind fun c s => readChars k (x <<< 8 ||| c.setWidth w) s

/-- `while cur != EOS: c <- ReadChar()`, each character sent as a data beat once its pull is answered (R110, R113).
`fuel` bounds the loop tests; it runs out only on an endless source, which is R114's hang. -/
def readStringLoop : Nat → State → Res Unit
  | 0, _ => .stuck .stringEndless
  | fuel + 1, s =>
    if s.isEmpty then .ok () s
    else (readChar s).bind fun c s => readStringLoop fuel (s.log (.beat (charBeat c)))

/-- `ReadString()` (R110). A character takes one pull, so a source with `m` bytes left ends the loop within `m + 2`
tests. -/
def readString (s : State) : Res Unit :=
  if s.isEmpty then .err .endOfStream s else readStringLoop (s.src.bytes.length + 2) s

/-- DELIVERING AN ERROR (R126): the final beat with the error's status and `data = 0` (R58). Nothing is saved, masked or
latched, and no register changes (R125, R127); what the command had consumed stays consumed (R124). -/
def takeError (k : ErrKind) (s : State) : State := s.log (.beat (errBeat k))

/-- The response of a command that produced `d`, or raised, or hangs (R56, R58). -/
def respond (r : Res Data) : Host.Outcome State Fault Refusal :=
  match r with
  | .ok d s => .next (s.log (.beat (okBeat d)))
  | .err k s => .next (takeError k s)
  | .stuck f => .fault f

/-- `zext_32` of a result (R58). -/
def Res.zext {w : Nat} (r : Res (BitVec w)) : Res Data := r.bind fun x s => .ok (x.setWidth 32) s

/-- `zext_32` of a boolean: 1 for true, 0 for false (R58, R81). -/
def zextBool (b : Bool) : Data := (BitVec.ofBool b).setWidth 32

end Sys2Proof.Machine
end

