-- ==== Sys2Proof/Machine/Observe.lean ====
section
/-! DEFINITION. What the spec derives from the state and the ports and does not store: the pulls and the stream position
(R15, R47), the beats, the remaining bit stream `R` (R8), and the number a group of bits stands for (R37). -/

namespace Sys2Proof.Machine

/-- The bytes the source has handed over, in order. -/
def pulledBytes : List PortEvent → List Byte
  | [] => []
  | .pull (.byte b) :: es => b :: pulledBytes es
  | .pull .eos :: es => pulledBytes es
  | .cmd _ :: es => pulledBytes es
  | .beat _ :: es => pulledBytes es

/-- How many pulls were answered with EOS. -/
def eosAnswers : List PortEvent → Nat
  | [] => 0
  | .pull .eos :: es => eosAnswers es + 1
  | .pull (.byte _) :: es => eosAnswers es
  | .cmd _ :: es => eosAnswers es
  | .beat _ :: es => eosAnswers es

/-- The transactions on the SRC port (R47). -/
def transfers (es : List PortEvent) : Nat := (pulledBytes es).length + eosAnswers es

/-- The latest answer of the source. -/
def lastAnswer : List PortEvent → Option ByteOrEos
  | [] => none
  | .pull a :: es => some ((lastAnswer es).getD a)
  | .cmd _ :: es => lastAnswer es
  | .beat _ :: es => lastAnswer es

/-- The beats, in order. -/
def beats : List PortEvent → List Beat
  | [] => []
  | .beat b :: es => b :: beats es
  | .cmd _ :: es => beats es
  | .pull _ :: es => beats es

/-- `pulled` (R15): the byte answers since reset. -/
def State.pulled (s : State) : Nat := (pulledBytes s.ports).length

/-- `pos = 8 * pulled - n` (R15). -/
def State.pos (s : State) : Nat := 8 * s.pulled - s.n.val

/-- The beat that ends the latest response, if a response is the last thing that happened. -/
def State.finalBeat (s : State) : Option Beat :=
  match s.ports.getLast? with
  | some (.beat b) => some b
  | _ => none

/-- The low `k` bits of a byte, most significant first. -/
def lowBits : Nat → Byte → List Bool
  | 0, _ => []
  | k + 1, b => b.getLsbD k :: lowBits k b

/-- The bits of bytes in stream order: bit 7 first (R36). -/
def bytesBits : List Byte → List Bool
  | [] => []
  | b :: bs => lowBits 8 b ++ bytesBits bs

/-- Byte `k` of those the source has not yet handed over, in source order (R8, R30), on every source; none past the
last byte it will deliver. -/
def Source.byteAt (src : Source) (k : Nat) : Option Byte :=
  match src.bytes[k]?, src.ending with
  | some b, _ => some b
  | none, .endless stream index => some (Config.endlessByte stream (index + (k - src.bytes.length)))
  | none, .eos => none
  | none, .silent => none

/-- The bytes `index` to `index + count - 1` of the endless stream `stream`. -/
def freeBytes (stream : Nat) : Nat → Nat → List Byte
  | _, 0 => []
  | index, count + 1 => Config.endlessByte stream index :: freeBytes stream (index + 1) count

/-- Bit `k` of the remaining bit stream `R` (R8), on every source: the `n` unconsumed bits of the buffered byte, then
bits 7 down to 0 of every byte still in the source; none past the end of `R`. -/
def State.bitAt (s : State) (k : Nat) : Option Bool :=
  match s.cur with
  | .eos => none
  | .byte b =>
    if k < s.n.val then some (b.getLsbD (s.n.val - 1 - k))
    else (s.src.byteAt ((k - s.n.val) / 8)).map fun c => c.getLsbD (7 - (k - s.n.val) % 8)

/-- The first `k` bits of `R`; fewer if `R` is shorter. -/
def State.firstBits (s : State) (k : Nat) : List Bool := (List.range k).filterMap s.bitAt

/-- A length, "possibly infinite" (R8). -/
inductive StreamLength where
  | finite (len : Nat)
  | infinite
deriving DecidableEq, Repr

/-- The length is `k` or more. -/
def StreamLength.atLeast (l : StreamLength) (k : Nat) : Bool :=
  match l with
  | .finite len => k ≤ len
  | .infinite => true

/-- The length without its first `k`. -/
def StreamLength.minus (l : StreamLength) (k : Nat) : StreamLength :=
  match l with
  | .finite len => .finite (len - k)
  | .infinite => .infinite

/-- `|R|` (R8): 0 when the cursor is empty, else `n + 8 * (bytes still in the source)`, infinite on an endless source. -/
def State.remainingLength (s : State) : StreamLength :=
  match s.cur, s.src.ending with
  | .eos, _ => .finite 0
  | .byte _, .eos => .finite (s.n.val + 8 * s.src.bytes.length)
  | .byte _, .silent => .finite (s.n.val + 8 * s.src.bytes.length)
  | .byte _, .endless _ _ => .infinite

/-- `R` as a list, as far as the source's listed bytes go: all of `R` on a source that is not endless. -/
def State.remaining (s : State) : List Bool :=
  match s.cur with
  | .eos => []
  | .byte b => lowBits s.n.val b ++ bytesBits s.src.bytes

/-- The value of bits, first bit most significant (R37). -/
def bitsValue : List Bool → Nat
  | [] => 0
  | b :: bs => b.toNat * 2 ^ bs.length + bitsValue bs

/-- How many bits a read asks for (R45), for the widths it accepts. -/
def fieldWidth : Instr → Option Nat
  | .rdBit => some 1
  | .rdChar => some 8
  | .rdCharW r => if charWidthOk r then some r else none
  | .rdShort => some 16
  | .rdInt => some 32
  | .rdIntW r => if intWidthOk r then some r else none
  | .existsQ => none
  | .isEmpty => none
  | .rdStr => none

end Sys2Proof.Machine
end

