-- ==== Sys2Proof/Machine/Control.lean ====
section
/-! DEFINITION. What happens around commands: priming (R141), reset (R140), accepting a command (R61), the answer to a
reserved word (R122), and a reset in the middle of a command (R142). -/

namespace Sys2Proof.Machine

/-- Priming (R141): one `Refill()` if a source is bound, no pull otherwise; then commands are accepted. -/
def prime (s : State) : Host.Outcome State Fault Refusal :=
  if s.bound then
    match refill s with
    | .ok _ s => .next { s with priming := false }
    | .err k s => .next (takeError k s)
    | .stuck f => .fault f
  else .next { s with priming := false }

/-- Reset (R140): the strap is sampled, the registers take their reset values, and the block enters Priming on whatever
source is now attached (R142, R143). The log of the ports starts afresh; the old one is kept in `past`. -/
def resetBlock (p : ResetPulse) (s : State) : State where
  priming := true
  cur := .eos
  n := 0
  bound := p.srcOk
  src := p.attach.getD s.src
  inputs := s.inputs
  ports := []
  past := s.past ++ [s.ports]

/-- The CMD transfer (R61): the caller's word `w` is taken, and `rest` is what the outside does after it. -/
def State.accept (s : State) (w : CmdWord) (rest : List Input) : State :=
  { s with inputs := rest }.log (.cmd w)

/-- A reserved opcode: ILLEGAL_CMD in one beat, no state change, no pull (R54, R122). -/
def illegalCommand (s : State) : Host.Outcome State Fault Refusal := .next (takeError .illegalCommand s)

/-- The source cut after its next `k` bytes: it answers those as it would have, and EOS if that comes within them, and
then nothing. -/
def Source.cut : Nat → Source → Source
  | 0, src =>
    match src.next with
    | some (.eos, _) => ⟨[], .eos⟩
    | _ => ⟨[], .silent⟩
  | k + 1, src =>
    match src.next with
    | some (.byte b, src') => ⟨b :: (Source.cut k src').bytes, (Source.cut k src').ending⟩
    | some (.eos, _) => ⟨[], .eos⟩
    | none => ⟨[], .silent⟩

/-- The source after `k` of its bytes are taken. -/
def Source.skip : Nat → Source → Source
  | 0, src => src
  | k + 1, src =>
    match src.next with
    | some (.byte _, src') => Source.skip k src'
    | _ => src

/-- The port transactions of a command, up to and without its final beat: what the log holds when it completes, or when
it hangs. -/
def unfinishedLog : Host.Outcome State Fault Refusal → Host.Outcome (List PortEvent) Fault Refusal
  | .next t => .next t.ports.dropLast
  | .fault (.sourceSilent ports) => .next ports
  | .fault f => .fault f
  | .refused r => .refused r

/-- A reset after `events` of a command's port transactions (R142; entry 9). `run` is the command, started from the
accepted state `s`: it is run on the source cut after as many bytes, its log is cut there, and never holds the final
beat ("no further beat of it is sent"). The bytes it pulled are gone from the source and its registers are reset. -/
def abandon (run : State → Host.Outcome State Fault Refusal) (events : Nat) (p : ResetPulse) (s : State) :
    Host.Outcome State Fault Refusal :=
  match unfinishedLog (run { s with src := s.src.cut events }) with
  | .next ports =>
    let ports := ports.take (s.ports.length + events)
    let taken := (pulledBytes ports).length - (pulledBytes s.ports).length
    .next (resetBlock p { s with ports := ports, src := s.src.skip taken })
  | .fault f => .fault f
  | .refused r => .refused r

end Sys2Proof.Machine
end

