-- ==== Sys2Proof/Machine/BitRead.lean ====
section
/-! DEFINITION. The single-bit read RDBIT (R80 to R82). -/

namespace Sys2Proof.Machine

/-- RDBIT (R80): `true` is the bit value 1 (R81); the response follows the eager refill (R82). -/
def execRdBit (s : State) : Host.Outcome State Fault Refusal :=
  respond ((readBit s).bind fun b s => .ok (zextBool b) s)

end Sys2Proof.Machine
end

