-- ==== Sys2Proof/Machine/CharRead.lean ====
section
/-! DEFINITION. The character reads RDCHAR (R90) and RDCHARW (R93). -/

namespace Sys2Proof.Machine

/-- RDCHAR (R90). -/
def execRdChar (s : State) : Host.Outcome State Fault Refusal := respond (readChar s).zext

/-- `ReadCharW(r)` on its 16-bit accumulator (R93): the width check comes before anything else, and `r == 8` takes the
`ReadChar()` path. -/
def readCharW (r : Nat) (s : State) : Res (BitVec 16) :=
  if charWidthOk r then
    if r = 8 then (readChar s).bind fun c s => .ok (c.setWidth 16) s else readBits r 0 s
  else .err .invalidWidth s

/-- RDCHARW r (R93). -/
def execRdCharW (r : Nat) (s : State) : Host.Outcome State Fault Refusal := respond (readCharW r s).zext

end Sys2Proof.Machine
end

