-- ==== Sys2Proof/Machine/IntRead.lean ====
section
/-! DEFINITION. The integer reads RDSHORT (R100), RDINT (R101) and RDINTW (R102, R105). -/

namespace Sys2Proof.Machine

/-- RDSHORT (R100): two characters on a 16-bit accumulator. -/
def execRdShort (s : State) : Host.Outcome State Fault Refusal := respond (readChars 2 (0 : BitVec 16) s).zext

/-- RDINT (R101): four characters on a 32-bit accumulator. -/
def execRdInt (s : State) : Host.Outcome State Fault Refusal := respond (readChars 4 (0 : BitVec 32) s)

/-- `ReadIntW(r)` on its 32-bit accumulator (R102): the width check comes before anything else. -/
def readIntW (r : Nat) (s : State) : Res (BitVec 32) :=
  if intWidthOk r then readBits r 0 s else .err .invalidWidth s

/-- RDINTW r (R102): the completed behaviour R105 makes normative. -/
def execRdIntW (r : Nat) (s : State) : Host.Outcome State Fault Refusal := respond (readIntW r s)

end Sys2Proof.Machine
end

