-- ==== Sys2Proof/Machine/Status.lean ====
section
/-! DEFINITION. The status queries EXISTS (R70) and ISEMPTY (R71): no pull, no register written, no error. -/

namespace Sys2Proof.Machine

/-- EXISTS (R70): `return bound`. -/
def execExists (s : State) : Host.Outcome State Fault Refusal := respond (.ok (zextBool s.bound) s)

/-- ISEMPTY (R71): `return (cur == EOS)`. -/
def execIsEmpty (s : State) : Host.Outcome State Fault Refusal := respond (.ok (zextBool s.isEmpty) s)

end Sys2Proof.Machine
end

