-- ==== Sys2Proof/Machine/StringRead.lean ====
section
/-! DEFINITION. The string read RDSTR (R110 to R114). -/

namespace Sys2Proof.Machine

/-- RDSTR (R110): the data beats went out in the loop; the final beat carries `data = 0` (R59). -/
def execRdStr (s : State) : Host.Outcome State Fault Refusal :=
  respond ((readString s).bind fun _ s => .ok 0 s)

end Sys2Proof.Machine
end

