-- ==== Sys2Proof/Machine/Dispatch.lean ====
section
/-! DEFINITION. One arm for each constructor of Instr: the command's one atomic transition (R6). -/

namespace Sys2Proof.Machine

def exec (i : Instr) (s : State) : Host.Outcome State Fault Refusal :=
  match i with
  | .existsQ => Sys2Proof.Machine.execExists s
  | .isEmpty => Sys2Proof.Machine.execIsEmpty s
  | .rdBit => Sys2Proof.Machine.execRdBit s
  | .rdChar => Sys2Proof.Machine.execRdChar s
  | .rdCharW r => Sys2Proof.Machine.execRdCharW r s
  | .rdShort => Sys2Proof.Machine.execRdShort s
  | .rdInt => Sys2Proof.Machine.execRdInt s
  | .rdIntW r => Sys2Proof.Machine.execRdIntW r s
  | .rdStr => Sys2Proof.Machine.execRdStr s

end Sys2Proof.Machine
end

