-- ==== Sys2Proof/Machine/Step.lean ====
section
/-! DEFINITION. One step: the priming pull, or the next thing the outside does. A step with nothing presented leaves the
state as it is: the block "is idle between commands" and "never halts" (R133, R154). -/

namespace Sys2Proof.Machine

/-- An accepted command word runs: its instruction, or the answer to a reserved word (R52, R54). -/
def runWord (w : CmdWord) (s : State) : Host.Outcome State Fault Refusal :=
  match decode w with
  | .instr i => exec i s
  | .reserved _ => illegalCommand s

/-- A step in state Priming: "none accepted" (R17), so commands wait; a reset can cut the priming pull short (R142). -/
def stepPriming (s : State) : Host.Outcome State Fault Refusal :=
  match s.inputs with
  | .resetInPriming p :: rest => .next (resetBlock p { s with inputs := rest })
  | _ => prime s

/-- A step between commands. -/
def stepReady (s : State) : Host.Outcome State Fault Refusal :=
  match s.inputs with
  | [] => .next s
  | .cmd w :: rest => runWord w (s.accept w rest)
  | .reset p :: rest => .next (resetBlock p { s with inputs := rest })
  | .resetInPriming p :: rest => .next (resetBlock p { s with inputs := rest })
  | .resetInCmd w events p :: rest => abandon (runWord w) events p (s.accept w rest)

/-- One step of the machine. -/
def step (s : State) : Host.Outcome State Fault Refusal :=
  if s.priming then stepPriming s else stepReady s

/-- `s` with priming done, if its source answers the priming pull. -/
def State.primed (s : State) : State :=
  if s.priming then
    match prime s with
    | .next t => t
    | .fault _ => s
    | .refused _ => s
  else s

/-- `s` with the command word of `nbits` bits `w` presented next, so that the next step accepts and runs it: the block
is past Priming (R141), and the word heads `inputs`. A number that is no 10-bit word is not presented (entries 4, 14). -/
def State.withFetchWord (s : State) (nbits w : Nat) : State :=
  let v := w % 2 ^ nbits
  if v < 1024 then { s.primed with inputs := .cmd (BitVec.ofNat 10 v) :: s.primed.inputs } else s

end Sys2Proof.Machine
end

