-- ==== Sys2Proof/Safety.lean ====
section
/-! DEFINITION. What claims are stated in: the invariant of R18 and R47, and which sources answer. -/

namespace Sys2Proof.Machine

/-- Every pull is answered (the contract of R30). -/
def Source.answers (src : Source) : Bool :=
  match src.ending with
  | .eos => true
  | .endless _ _ => true
  | .silent => false

/-- The source ends: after its bytes it answers EOS (R30). -/
def Source.finite (src : Source) : Bool :=
  match src.ending with
  | .eos => true
  | .endless _ _ => false
  | .silent => false

/-- The invariants of R18 (items 1 to 4), and the port bookkeeping of R10, R44 and R47. They hold between commands and in Priming. -/
structure State.Inv (s : State) : Prop where
  /-- R18 item 2: with a byte in `cur`, `n` is in 1 to 8 -/
  count_of_byte : ∀ b, s.cur = .byte b → 1 ≤ s.n.val
  /-- R18 item 4: `n` is 0 when `cur == EOS` -/
  count_of_eos : s.cur = .eos → s.n = 0
  /-- R23: in Priming the cursor is empty and nothing has crossed the ports -/
  priming_fresh : s.priming = true → s.cur = .eos ∧ s.ports = []
  /-- R23, R47: with a failed binding the cursor is empty and no pull is made -/
  unbound : s.bound = false → s.cur = .eos ∧ transfers s.ports = 0
  /-- R10: `cur` is what the most recent pull answered -/
  cur_is_last_answer : s.bound = true → s.priming = false → lastAnswer s.ports = some s.cur
  /-- R44, R47: the one EOS answer is the one that emptied the cursor -/
  eos_once : eosAnswers s.ports = (s.bound && !s.priming && s.isEmpty).toNat
  /-- R44, R47: a bound and empty cursor has been told EOS, and the source holds nothing more -/
  drained : s.bound = true → s.priming = false → s.cur = .eos → s.src = ⟨[], .eos⟩

/-- R134 on a source that ends: the status an instruction answers with when `len` bits are left at entry. -/
def expectedStatus : Instr → Nat → Status
  | .existsQ, _ => .ok
  | .isEmpty, _ => .ok
  | .rdBit, len => if 1 ≤ len then .ok else .eosErr
  | .rdChar, len => if 8 ≤ len then .ok else .eosErr
  | .rdCharW r, len => if r = 0 ∨ 17 ≤ r then .widthErr else if r ≤ len then .ok else .eosErr
  | .rdShort, len => if 16 ≤ len then .ok else .eosErr
  | .rdInt, len => if 32 ≤ len then .ok else .eosErr
  | .rdIntW r, len => if r = 0 ∨ 33 ≤ r then .widthErr else if r ≤ len then .ok else .eosErr
  | .rdStr, len => if 8 ≤ len ∧ len % 8 = 0 then .ok else .eosErr

/-- R35's table: the pulls a successful command makes, `n` the bit count at entry; RDSTR is counted by its characters. -/
def expectedPulls : Instr → Nat → Option Nat
  | .existsQ, _ => some 0
  | .isEmpty, _ => some 0
  | .rdBit, n => some (if n = 1 then 1 else 0)
  | .rdChar, _ => some 1
  | .rdCharW r, n => some ((r + 8 - n) / 8)
  | .rdShort, _ => some 2
  | .rdInt, _ => some 4
  | .rdIntW r, n => some ((r + 8 - n) / 8)
  | .rdStr, _ => none

/-- R113: the port transactions of a byte-aligned RDSTR with `c` buffered and `bs` left in a source that ends. Each
iteration's pull is answered before its character's data beat; the final beat follows the last character. -/
def stringEvents : Byte → List Byte → List PortEvent
  | c, [] => [.pull .eos, .beat (charBeat c), .beat (okBeat 0)]
  | c, b :: bs => .pull (.byte b) :: .beat (charBeat c) :: stringEvents b bs

/-- The character across `n` unread bits of `c` and the byte `b` after it (R90, R91); `c` itself for `n = 8`. -/
def spliced (n : Nat) (c b : Byte) : Byte := c <<< (8 - n) ||| b >>> n

/-- R113: RDSTR's port transactions with `n` unread bits of `c` buffered while the source delivers `bs`, one iteration
for each byte: the pull, then the character's data beat. -/
def stringPulls (n : Nat) : Byte → List Byte → List PortEvent
  | _, [] => []
  | c, b :: bs => .pull (.byte b) :: .beat (charBeat (spliced n c b)) :: stringPulls n b bs

/-- The state after the same command `count` times. -/
def repeatExec : Nat → Instr → State → Option State
  | 0, _, s => some s
  | count + 1, i, s =>
    match exec i s with
    | .next t => repeatExec count i t
    | .fault _ => none
    | .refused _ => none

/-- The outside's next action is not a reset. -/
def State.noResetNext (s : State) : Bool :=
  match s.inputs with
  | [] => true
  | .cmd _ :: _ => true
  | .reset _ :: _ => false
  | .resetInPriming _ :: _ => false
  | .resetInCmd _ _ _ :: _ => false

/-- The outside's next action is not a reset that cuts Priming short. -/
def State.primingRuns (s : State) : Bool :=
  match s.inputs with
  | .resetInPriming _ :: _ => false
  | [] => true
  | .cmd _ :: _ => true
  | .reset _ :: _ => true
  | .resetInCmd _ _ _ :: _ => true

end Sys2Proof.Machine
end

