-- ==== Sys2Proof/Certificates/Slice0/Obligations.lean ====
section
/-! DEFINITION. The statements for the provers, by section of the spec. Successor states are written out as records, so
that a statement says what becomes of every field. [derived] and [decision] after a rule are the spec's own marks on it.
-/

open Sys2Proof Sys2Proof.Machine

/-! ### Encodings (`30_encoding.md`) -/

/-- R51 [decision], R53 [decision]: the width is never masked or dropped. -/
def Obligations.DecodeOfEncodeIsTheInstruction : Prop :=
  ∀ i : Instr, i.wf = true → decode (encode i) = .instr i

/-- R51 [decision], R54 [decision] (b), R62 [decision]: a word that decodes is the canonical word of its instruction,
but for the ignored `r` field. -/
def Obligations.EncodeOfDecodeIsTheCanonicalWord : Prop :=
  ∀ (w : CmdWord) (i : Instr), decode w = .instr i →
    i.wf = true ∧ encode i = (if i.usesWidth then w else w &&& 0x3C0)

/-- R52 [decision], R54 [decision] (a): every word selects one row, and the decoder reads that row. -/
def Obligations.EveryWordSelectsOneRow : Prop :=
  ∀ w : CmdWord,
    (opcodeRows ++ reservedRows).countP (fun row => row.selects w) = 1 ∧
    match decode w with
    | .instr i => ∀ row ∈ opcodeRows, (row.selects w = true ↔ row.mnemonic = i.mnemonic)
    | .reserved op => op = w.extractLsb' 6 4 ∧ 9 ≤ op.toNat ∧ ∀ row ∈ opcodeRows, row.selects w = false

/-- R63 [decision, derived]: the worked encodings, in both directions, the words it says are rejected, and the beats. -/
def Obligations.WorkedEncodings : Prop :=
  (∀ p ∈ [(Instr.existsQ, (0x000 : CmdWord)), (.isEmpty, 0x040), (.rdBit, 0x080), (.rdChar, 0x0C0),
      (.rdCharW 1, 0x101), (.rdCharW 8, 0x108), (.rdCharW 12, 0x10C), (.rdCharW 16, 0x110), (.rdCharW 17, 0x111),
      (.rdShort, 0x140), (.rdInt, 0x180), (.rdIntW 9, 0x1C9), (.rdIntW 32, 0x1E0), (.rdIntW 33, 0x1E1),
      (.rdIntW 0, 0x1C0), (.rdStr, 0x200)], encode p.1 = p.2 ∧ decode p.2 = .instr p.1) ∧
  (∀ w ∈ [(0x111 : CmdWord), 0x1E1, 0x1C0], ∀ s : State,
    runWord w s = .next { s with ports := s.ports ++ [.beat ⟨true, .widthErr, 0⟩] }) ∧
  (∀ w ∈ [(0x240 : CmdWord), 0x3FF], ∀ s : State,
    runWord w s = .next { s with ports := s.ports ++ [.beat ⟨true, .illegalCmd, 0⟩] }) ∧
  decode 0x0BF = .instr .rdBit ∧
  (⟨true, .ok, 257⟩ : Beat).encode = 0x400000101 ∧ (⟨true, .eosErr, 0⟩ : Beat).encode = 0x500000000 ∧
  (⟨true, .widthErr, 0⟩ : Beat).encode = 0x600000000 ∧ (⟨true, .illegalCmd, 0⟩ : Beat).encode = 0x700000000 ∧
  (⟨false, .ok, 0x41⟩ : Beat).encode = 0x000000041

/-- R56 [decision], R57 [decision]: a beat and its 35-bit word say the same. -/
def Obligations.BeatWordsRoundTrip : Prop :=
  (∀ b : Beat, Beat.decode b.encode = b) ∧ (∀ w : BeatWord, (Beat.decode w).encode = w) ∧
  (∀ b : Beat, b.encode.getLsbD 34 = b.last ∧ b.encode.extractLsb' 0 32 = b.data ∧
    b.encode.extractLsb' 32 2 = (match b.status with | .ok => 0 | .eosErr => 1 | .widthErr => 2 | .illegalCmd => 3))

/-- R55 [decision]: a command's line of text names it. -/
def Obligations.CommandTextRoundTrip : Prop :=
  ∀ i : Instr, i.wf = true → parseLine i.text = some i

/-! ### Reset, priming and the step (`70_reset_and_hazards.md`) -/

/-- R140 [decision]: what a pulse on `rst` leaves, from any state between commands (the inputs and the logs: entry 2). On
an idle block the input meant for Priming is a plain reset too (entry 9). -/
def Obligations.ResetEntersPriming : Prop :=
  ∀ (s : State) (p : ResetPulse) (rest : List Input),
    s.priming = false → (s.inputs = .reset p :: rest ∨ s.inputs = .resetInPriming p :: rest) →
    step s = .next { priming := true, cur := .eos, n := 0, bound := p.srcOk, src := p.attach.getD s.src, inputs := rest,
                     ports := [], past := s.past ++ [s.ports] }

/-- R142 [decision] in Priming: a reset before the priming pull is answered takes nothing from the source (entry 9). -/
def Obligations.ResetCutsPrimingShort : Prop :=
  ∀ (s : State) (p : ResetPulse) (rest : List Input),
    s.priming = true → s.inputs = .resetInPriming p :: rest →
    step s = .next { priming := true, cur := .eos, n := 0, bound := p.srcOk, src := p.attach.getD s.src, inputs := rest,
                     ports := [], past := s.past ++ [s.ports] }

/-- R141 [decision] and R23 [decision]'s columns: one refill if a source is bound, no pull otherwise, and no command is
accepted before. -/
def Obligations.PrimingOutcomes : Prop :=
  ∀ s : State, s.priming = true → s.primingRuns = true →
    (s.bound = false → step s = .next { s with priming := false }) ∧
    (s.bound = true → ∀ b src, s.src.next = some (.byte b, src) →
      step s = .next { s with priming := false, cur := .byte b, n := 8, src := src,
                              ports := s.ports ++ [.pull (.byte b)] }) ∧
    (s.bound = true → ∀ src, s.src.next = some (.eos, src) →
      step s = .next { s with priming := false, cur := .eos, n := 0, src := src, ports := s.ports ++ [.pull .eos] })

/-- R150: an unanswered priming pull is a stuck state; that it is this fault is the model's choice (entry 6). -/
def Obligations.SilentSourceHangsPriming : Prop :=
  ∀ s : State, s.priming = true → s.primingRuns = true → s.bound = true → s.src.next = none →
    step s = .fault (.sourceSilent s.ports)

/-- R52 [decision], R61 [decision]: an accepted word is logged and its instruction runs on the accepted state. -/
def Obligations.StepRunsTheDecodedInstruction : Prop :=
  ∀ (s : State) (w : CmdWord) (rest : List Input) (i : Instr),
    s.priming = false → s.inputs = .cmd w :: rest → decode w = .instr i →
    step s = exec i { s with inputs := rest, ports := s.ports ++ [.cmd w] }

/-- R122 [decision]: the answer to a reserved opcode, checked before anything else. -/
def Obligations.ReservedOpcodeAnswersIllegalCommand : Prop :=
  Status.illegalCmd.code = 3 ∧ ∀ (s : State) (w : CmdWord) (rest : List Input),
    s.priming = false → s.inputs = .cmd w :: rest → 9 ≤ (w.extractLsb' 6 4).toNat →
    step s = .next { s with inputs := rest, ports := s.ports ++ [.cmd w, .beat ⟨true, .illegalCmd, 0⟩] }

/-- R133, R154: with nothing presented the block stays as it is; that this is a step is the model's choice (entry 8). -/
def Obligations.IdleBlockStays : Prop :=
  ∀ s : State, s.priming = false → s.inputs = [] → step s = .next s

/-- R142 [decision]: a reset in the middle of a command, which can always land. The registers are reset; what happened of
the command is the first `events` port transactions of what it does undisturbed, its final beat left out: of its
completed run, of what it did before it hung, or of the execution that never ends; and the bytes it pulled are gone from
the source. Where a reset lands is the model's choice (entry 9). -/
def Obligations.ResetInTheMiddleOfACommand : Prop :=
  ∀ (s : State) (w : CmdWord) (events : Nat) (p : ResetPulse) (rest : List Input),
    s.priming = false → s.inputs = .resetInCmd w events p :: rest →
    (s.Inv → ∃ t, step s = .next t) ∧
    ∀ t, step s = .next t →
      t.priming = true ∧ t.cur = .eos ∧ t.n = 0 ∧ t.bound = p.srcOk ∧ t.inputs = rest ∧ t.ports = [] ∧
      ∃ es, t.past = s.past ++ [s.ports ++ .cmd w :: es] ∧ es.length ≤ events ∧
        (∀ e ∈ es, match e with
          | .pull _ => True
          | .beat b => b.last = false
          | .cmd _ => False) ∧
        (∀ u, runWord w { s with inputs := rest, ports := s.ports ++ [.cmd w] } = .next u →
          es = ((u.ports.drop (s.ports.length + 1)).dropLast).take events) ∧
        (∀ q, runWord w { s with inputs := rest, ports := s.ports ++ [.cmd w] } = .fault (.sourceSilent q) →
          es = (q.drop (s.ports.length + 1)).take events) ∧
        (∀ c stream index, decode w = .instr .rdStr → s.cur = .byte c → s.n ≠ 0 →
          s.src.ending = .endless stream index →
          es = (stringPulls s.n.val c (s.src.bytes ++ freeBytes stream index events)).take events) ∧
        (∀ src, p.attach = some src → t.src = src) ∧
        (p.attach = none →
          ((∀ stream index, s.src.ending ≠ .endless stream index) →
            pulledBytes es ++ t.src.bytes = s.src.bytes ∧ t.src.ending = s.src.ending) ∧
          (∀ stream index, s.src.ending = .endless stream index → ∃ count,
            pulledBytes es ++ t.src.bytes = s.src.bytes ++ freeBytes stream index count ∧
            t.src.ending = .endless stream (index + count) ∧ (count = 0 ∨ t.src.bytes = [])))

/-- The model's own (entry 4): the host's two views of a command word agree with the step. -/
def Obligations.PresentedWordRunsNext : Prop :=
  ∀ (s : State) (nbits w : Nat) (i : Instr),
    s.priming = false → decodeTableWord nbits w = some i →
    step (s.withFetchWord nbits w) =
      exec i { s with ports := s.ports ++ [.cmd (BitVec.ofNat 10 (w % 2 ^ nbits))] }

/-! ### The source and the refill (`20_memory.md`) -/

/-- R30: what a pull answers, and what it leaves of the source, on every source; the fault of the third clause is the
model's (entry 6), and an endless source's bytes are free values (entry 5). -/
def Obligations.PullFollowsTheSource : Prop :=
  ∀ s : State,
    (∀ b bs, s.src.bytes = b :: bs →
      srcNext s = .ok (.byte b) { s with src := ⟨bs, s.src.ending⟩, ports := s.ports ++ [.pull (.byte b)] }) ∧
    (s.src.bytes = [] → s.src.ending = .eos →
      srcNext s = .ok .eos { s with ports := s.ports ++ [.pull .eos] }) ∧
    (s.src.bytes = [] → s.src.ending = .silent → srcNext s = .stuck (.sourceSilent s.ports)) ∧
    (∀ stream index, s.src.bytes = [] → s.src.ending = .endless stream index →
      srcNext s = .ok (.byte (Config.endlessByte stream index))
        { s with src := ⟨[], .endless stream (index + 1)⟩,
                 ports := s.ports ++ [.pull (.byte (Config.endlessByte stream index))] })

/-- R34 [decision]: the refill loads the answer and the count. -/
def Obligations.RefillLoadsTheAnswer : Prop :=
  ∀ (s : State) (src : Source),
    (s.src.next = some (.eos, src) →
      refill s = .ok () { s with cur := .eos, n := 0, src := src, ports := s.ports ++ [.pull .eos] }) ∧
    (∀ b, s.src.next = some (.byte b, src) →
      refill s = .ok () { s with cur := .byte b, n := 8, src := src, ports := s.ports ++ [.pull (.byte b)] })

/-- R41 [decision] item 3, R39: the bytes pulled since reset, then those still listed in the source, are one sequence
that no instruction reorders, repeats or skips; on an endless source it goes on with the free stream from its index, of
which nothing is pulled before the listed bytes are. -/
def Obligations.BytesArePulledInSourceOrder : Prop :=
  ∀ (i : Instr) (s t : State), exec i s = .next t →
    ((∀ stream index, s.src.ending ≠ .endless stream index) →
      pulledBytes t.ports ++ t.src.bytes = pulledBytes s.ports ++ s.src.bytes ∧ t.src.ending = s.src.ending) ∧
    (∀ stream index, s.src.ending = .endless stream index → ∃ count,
      pulledBytes t.ports ++ t.src.bytes = pulledBytes s.ports ++ s.src.bytes ++ freeBytes stream index count ∧
      t.src.ending = .endless stream (index + count) ∧ (count = 0 ∨ t.src.bytes = []))

/-- R35 [derived]: the pulls of a successful command, and a bound for a failing one. -/
def Obligations.PullCounts : Prop :=
  ∀ (i : Instr) (s t : State) (b : Beat), s.Inv → exec i s = .next t → t.finalBeat = some b →
    (∀ k, expectedPulls i s.n.val = some k →
      (b.status = .ok → transfers t.ports = transfers s.ports + k) ∧
      (b.status = .eosErr → transfers t.ports ≤ transfers s.ports + k) ∧
      (b.status = .widthErr → transfers t.ports = transfers s.ports)) ∧
    (i = .rdStr → b.status = .ok →
      (beats t.ports).length = (beats s.ports).length + (transfers t.ports - transfers s.ports) + 1)

/-- R47 [derived]: the lookahead, in every state that meets the invariant. -/
def Obligations.LookaheadIsOneByte : Prop :=
  ∀ s : State, s.Inv → s.priming = false →
    (∀ b, s.cur = .byte b → s.pulled = s.pos / 8 + 1 ∧ transfers s.ports = s.pulled) ∧
    (s.bound = true → s.cur = .eos →
      s.pos = 8 * s.pulled ∧ transfers s.ports = s.pulled + 1 ∧ s.src = ⟨[], .eos⟩) ∧
    (s.bound = false → transfers s.ports = 0 ∧ s.pulled = 0)

/-! ### Status queries (`40_status_queries.md`) -/

/-- R70: EXISTS, its encoding and its answer in every state. -/
def Obligations.ExistsAnswersBound : Prop :=
  encode .existsQ = 0x000 ∧ (∀ w : CmdWord, w.extractLsb' 6 4 = 0 → decode w = .instr .existsQ) ∧
  ∀ s : State,
    exec .existsQ s = .next { s with ports := s.ports ++ [.beat ⟨true, .ok, if s.bound = true then 1 else 0⟩] }

/-- R71: ISEMPTY, its encoding, its answer in every state, and that it tells whether a bit is left. -/
def Obligations.IsEmptyAnswersWhetherABitIsLeft : Prop :=
  encode .isEmpty = 0x040 ∧ (∀ w : CmdWord, w.extractLsb' 6 4 = 1 → decode w = .instr .isEmpty) ∧
  ∀ s : State,
    exec .isEmpty s = .next { s with ports := s.ports ++ [.beat ⟨true, .ok, if s.cur = .eos then 1 else 0⟩] } ∧
    (s.Inv → (s.cur = .eos ↔ s.remainingLength = .finite 0))

/-! ### Reads (`41_bit_read.md` to `43_int_reads.md`) -/

/-- R80: RDBIT, its encoding and every case an entry state can be in. -/
def Obligations.RdBitResult : Prop :=
  encode .rdBit = 0x080 ∧ (∀ w : CmdWord, w.extractLsb' 6 4 = 2 → decode w = .instr .rdBit) ∧
  ∀ s : State,
    (s.cur = .eos → exec .rdBit s = .next { s with ports := s.ports ++ [.beat ⟨true, .eosErr, 0⟩] }) ∧
    (∀ b, s.cur = .byte b → 2 ≤ s.n.val →
      exec .rdBit s = .next { s with n := s.n - 1,
                                     ports := s.ports ++ [.beat ⟨true, .ok, if b.getLsbD (s.n.val - 1) then 1 else 0⟩] }) ∧
    (∀ b c src, s.cur = .byte b → s.n = 1 → s.src.next = some (.byte c, src) →
      exec .rdBit s = .next { s with cur := .byte c, n := 8, src := src,
                                     ports := s.ports ++ [.pull (.byte c), .beat ⟨true, .ok, if b.getLsbD 0 then 1 else 0⟩] }) ∧
    (∀ b src, s.cur = .byte b → s.n = 1 → s.src.next = some (.eos, src) →
      exec .rdBit s = .next { s with cur := .eos, n := 0, src := src,
                                     ports := s.ports ++ [.pull .eos, .beat ⟨true, .ok, if b.getLsbD 0 then 1 else 0⟩] })

/-- R90: RDCHAR, its encoding and both paths. -/
def Obligations.RdCharResult : Prop :=
  encode .rdChar = 0x0C0 ∧ (∀ w : CmdWord, w.extractLsb' 6 4 = 3 → decode w = .instr .rdChar) ∧
  ∀ s : State,
    (s.cur = .eos → exec .rdChar s = .next { s with ports := s.ports ++ [.beat ⟨true, .eosErr, 0⟩] }) ∧
    (∀ b c src, s.cur = .byte b → s.n = 8 → s.src.next = some (.byte c, src) →
      exec .rdChar s = .next { s with cur := .byte c, n := 8, src := src,
                                      ports := s.ports ++ [.pull (.byte c), .beat ⟨true, .ok, b.setWidth 32⟩] }) ∧
    (∀ b src, s.cur = .byte b → s.n = 8 → s.src.next = some (.eos, src) →
      exec .rdChar s = .next { s with cur := .eos, n := 0, src := src,
                                      ports := s.ports ++ [.pull .eos, .beat ⟨true, .ok, b.setWidth 32⟩] }) ∧
    (∀ b c src, s.cur = .byte b → 1 ≤ s.n.val → s.n.val ≤ 7 → s.src.next = some (.byte c, src) →
      exec .rdChar s = .next { s with cur := .byte c, src := src,
                                      ports := s.ports ++ [.pull (.byte c),
                                        .beat ⟨true, .ok, (b <<< (8 - s.n.val) ||| c >>> s.n.val).setWidth 32⟩] }) ∧
    (∀ b src, s.cur = .byte b → 1 ≤ s.n.val → s.n.val ≤ 7 → s.src.next = some (.eos, src) →
      exec .rdChar s = .next { s with cur := .eos, n := 0, src := src,
                                      ports := s.ports ++ [.pull .eos, .beat ⟨true, .eosErr, 0⟩] })

/-- R92 [derived]: one character read is eight bit reads, in value, state, pulls and errors. -/
def Obligations.RdCharIsEightBitReads : Prop :=
  ∀ s : State, readChar s = readBits 8 (0 : BitVec 8) s

/-- R93: RDCHARW, its encoding and its answer at every width, from every state and on every source: 8 is RDCHAR's path,
and every legal width is that many single bits on the 16-bit accumulator. -/
def Obligations.RdCharWResult : Prop :=
  (∀ r, r < 64 → encode (.rdCharW r) = 0x100 ||| BitVec.ofNat 10 r) ∧
  (∀ w : CmdWord, w.extractLsb' 6 4 = 4 → decode w = .instr (.rdCharW (w.extractLsb' 0 6).toNat)) ∧
  ∀ (r : Nat) (s : State),
    (r < 1 ∨ 16 < r → exec (.rdCharW r) s = .next { s with ports := s.ports ++ [.beat ⟨true, .widthErr, 0⟩] }) ∧
    (1 ≤ r → r ≤ 16 → exec (.rdCharW r) s = respond (readBits r (0 : BitVec 16) s).zext) ∧
    exec (.rdCharW 8) s = exec .rdChar s

/-- R100: RDSHORT, its encoding; two character reads, whose outcomes RdCharResult says, the first the high byte; and
from a byte-aligned cursor written out. -/
def Obligations.RdShortIsBigEndian : Prop :=
  encode .rdShort = 0x140 ∧ (∀ w : CmdWord, w.extractLsb' 6 4 = 5 → decode w = .instr .rdShort) ∧
  (∀ s t : State, readChar s = .err .endOfStream t →
    exec .rdShort s = .next { t with ports := t.ports ++ [.beat ⟨true, .eosErr, 0⟩] }) ∧
  (∀ (s t u : State) (c0 : Byte), readChar s = .ok c0 t → readChar t = .err .endOfStream u →
    exec .rdShort s = .next { u with ports := u.ports ++ [.beat ⟨true, .eosErr, 0⟩] }) ∧
  (∀ (s t u : State) (c0 c1 : Byte), readChar s = .ok c0 t → readChar t = .ok c1 u →
    exec .rdShort s = .next { u with ports := u.ports ++ [.beat ⟨true, .ok, (c0 ++ c1).setWidth 32⟩] }) ∧
  ∀ (s : State) (b0 b1 : Byte), s.cur = .byte b0 → s.n = 8 →
    (∀ b2 bs, s.src.bytes = b1 :: b2 :: bs →
      exec .rdShort s = .next { s with cur := .byte b2, n := 8, src := ⟨bs, s.src.ending⟩,
                                       ports := s.ports ++ [.pull (.byte b1), .pull (.byte b2),
                                         .beat ⟨true, .ok, (b0 ++ b1).setWidth 32⟩] }) ∧
    (s.src = ⟨[b1], .eos⟩ →
      exec .rdShort s = .next { s with cur := .eos, n := 0, src := ⟨[], .eos⟩,
                                       ports := s.ports ++ [.pull (.byte b1), .pull .eos,
                                         .beat ⟨true, .ok, (b0 ++ b1).setWidth 32⟩] })

/-- R101: RDINT, its encoding; four character reads, whose outcomes RdCharResult says, the first the highest byte; and
from a byte-aligned cursor written out. -/
def Obligations.RdIntIsBigEndian : Prop :=
  encode .rdInt = 0x180 ∧ (∀ w : CmdWord, w.extractLsb' 6 4 = 6 → decode w = .instr .rdInt) ∧
  (∀ s t : State, readChar s = .err .endOfStream t →
    exec .rdInt s = .next { t with ports := t.ports ++ [.beat ⟨true, .eosErr, 0⟩] }) ∧
  (∀ (s t u : State) (c0 : Byte), readChar s = .ok c0 t → readChar t = .err .endOfStream u →
    exec .rdInt s = .next { u with ports := u.ports ++ [.beat ⟨true, .eosErr, 0⟩] }) ∧
  (∀ (s t u v : State) (c0 c1 : Byte), readChar s = .ok c0 t → readChar t = .ok c1 u →
    readChar u = .err .endOfStream v →
    exec .rdInt s = .next { v with ports := v.ports ++ [.beat ⟨true, .eosErr, 0⟩] }) ∧
  (∀ (s t u v x : State) (c0 c1 c2 : Byte), readChar s = .ok c0 t → readChar t = .ok c1 u → readChar u = .ok c2 v →
    readChar v = .err .endOfStream x →
    exec .rdInt s = .next { x with ports := x.ports ++ [.beat ⟨true, .eosErr, 0⟩] }) ∧
  (∀ (s t u v x : State) (c0 c1 c2 c3 : Byte), readChar s = .ok c0 t → readChar t = .ok c1 u → readChar u = .ok c2 v →
    readChar v = .ok c3 x →
    exec .rdInt s = .next { x with ports := x.ports ++ [.beat ⟨true, .ok, c0 ++ c1 ++ c2 ++ c3⟩] }) ∧
  ∀ (s : State) (b0 b1 b2 b3 : Byte), s.cur = .byte b0 → s.n = 8 →
    (∀ b4 bs, s.src.bytes = b1 :: b2 :: b3 :: b4 :: bs →
      exec .rdInt s = .next { s with cur := .byte b4, n := 8, src := ⟨bs, s.src.ending⟩,
                                     ports := s.ports ++ [.pull (.byte b1), .pull (.byte b2), .pull (.byte b3),
                                       .pull (.byte b4), .beat ⟨true, .ok, b0 ++ b1 ++ b2 ++ b3⟩] }) ∧
    (s.src = ⟨[b1, b2, b3], .eos⟩ →
      exec .rdInt s = .next { s with cur := .eos, n := 0, src := ⟨[], .eos⟩,
                                     ports := s.ports ++ [.pull (.byte b1), .pull (.byte b2), .pull (.byte b3),
                                       .pull .eos, .beat ⟨true, .ok, b0 ++ b1 ++ b2 ++ b3⟩] })

/-- R102: RDINTW, its encoding and its answer at every width, from every state and on every source: every legal width is
that many single bits on the 32-bit accumulator. -/
def Obligations.RdIntWResult : Prop :=
  (∀ r, r < 64 → encode (.rdIntW r) = 0x1C0 ||| BitVec.ofNat 10 r) ∧
  (∀ w : CmdWord, w.extractLsb' 6 4 = 7 → decode w = .instr (.rdIntW (w.extractLsb' 0 6).toNat)) ∧
  ∀ (r : Nat) (s : State),
    (r < 1 ∨ 32 < r → exec (.rdIntW r) s = .next { s with ports := s.ports ++ [.beat ⟨true, .widthErr, 0⟩] }) ∧
    (1 ≤ r → r ≤ 32 → exec (.rdIntW r) s = respond (readBits r (0 : BitVec 32) s))

/-- R45 [derived], the field-extraction law: every read of a fixed width is a run of single bits, in every state and on
every source; and on every source that answers, ending or not, it takes the next `k` bits of the remaining stream, at
every bit offset, or fails and leaves nothing. -/
def Obligations.FieldExtractionLaw : Prop :=
  ∀ (i : Instr) (k : Nat) (s : State), fieldWidth i = some k →
    exec i s = respond (readBits k (0 : BitVec 32) s) ∧
    (s.Inv → s.src.answers = true → s.remainingLength.atLeast k = true →
      ∃ t, exec i s = .next t ∧ (s.firstBits k).length = k ∧
        t.finalBeat = some ⟨true, .ok, BitVec.ofNat 32 (bitsValue (s.firstBits k))⟩ ∧
        (∀ j, t.bitAt j = s.bitAt (k + j)) ∧ t.remainingLength = s.remainingLength.minus k ∧
        t.lifecycle = (if t.remainingLength = .finite 0 then .exhausted else .active)) ∧
    (s.Inv → s.priming = false → s.src.answers = true → s.remainingLength.atLeast k = false →
      ∃ t, exec i s = .next t ∧ t.finalBeat = some ⟨true, .eosErr, 0⟩ ∧ t.remainingLength = .finite 0 ∧
        t.lifecycle = .exhausted ∧
        (s.remainingLength = .finite 0 → t = { s with ports := s.ports ++ [.beat ⟨true, .eosErr, 0⟩] }))

/-- R103 [derived] items 1 to 4, R81 [derived]: reads of one width are one operation, in value, state, pulls, errors and
hangs, from every state. -/
def Obligations.ReadsOfOneWidthAgree : Prop :=
  ∀ s : State,
    (∀ r, 1 ≤ r → r ≤ 16 → exec (.rdCharW r) s = exec (.rdIntW r) s) ∧
    exec .rdShort s = exec (.rdIntW 16) s ∧ exec .rdShort s = exec (.rdCharW 16) s ∧
    exec .rdInt s = exec (.rdIntW 32) s ∧
    exec .rdChar s = exec (.rdIntW 8) s ∧ exec .rdChar s = exec (.rdCharW 8) s ∧
    exec .rdBit s = exec (.rdIntW 1) s ∧ exec .rdBit s = exec (.rdCharW 1) s

/-- R103 [derived] item 5: two reads in a row are one read of the sum of their widths, when all succeed, on every source
that answers. -/
def Obligations.TwoReadsAreOneWiderRead : Prop :=
  ∀ (j k : Nat) (s : State), 1 ≤ j → 1 ≤ k → j + k ≤ 32 → s.Inv → s.src.answers = true →
    s.remainingLength.atLeast (j + k) = true →
    ∃ t u v x y, exec (.rdIntW j) s = .next t ∧ t.finalBeat = some ⟨true, .ok, x⟩ ∧
      exec (.rdIntW k) t = .next u ∧ u.finalBeat = some ⟨true, .ok, y⟩ ∧
      exec (.rdIntW (j + k)) s = .next v ∧ v.finalBeat = some ⟨true, .ok, x <<< k ||| y⟩ ∧
      u.cur = v.cur ∧ u.n = v.n ∧ u.src = v.src ∧ transfers u.ports = transfers v.ports

/-- R58 [decision], R104 [derived]: "The result of an `r`-bit read is in `0 .. 2^r - 1`", on every source. -/
def Obligations.ResultFitsItsWidth : Prop :=
  ∀ (i : Instr) (k : Nat) (s t : State) (b : Beat), fieldWidth i = some k → exec i s = .next t →
    t.finalBeat = some b → b.data.toNat < 2 ^ k

/-- R83 [derived]: the round trip of RDBIT from reset. -/
def Obligations.BitReadsReproduceTheStream : Prop :=
  ∀ (bs : List Byte) (s : State), step (State.atReset true ⟨bs, .eos⟩) = .next s →
    (∀ (i j : Nat) (b : Byte), bs[i]? = some b → j < 8 →
      ∃ t u, repeatExec (8 * i + j) .rdBit s = some t ∧ exec .rdBit t = .next u ∧
        u.finalBeat = some ⟨true, .ok, if b.getLsbD (7 - j) then 1 else 0⟩) ∧
    (∀ q, 8 * bs.length ≤ q →
      ∃ t u, repeatExec q .rdBit s = some t ∧ exec .rdBit t = .next u ∧ u.finalBeat = some ⟨true, .eosErr, 0⟩)

/-- R94 [derived]: the grouping of RDCHARW r from reset. -/
def Obligations.CharReadsGroupTheStream : Prop :=
  ∀ (bs : List Byte) (r : Nat) (s : State), 1 ≤ r → r ≤ 16 → step (State.atReset true ⟨bs, .eos⟩) = .next s →
    (∀ i, r * i + r ≤ 8 * bs.length →
      ∃ t u, repeatExec i (.rdCharW r) s = some t ∧ exec (.rdCharW r) t = .next u ∧
        u.finalBeat = some ⟨true, .ok, BitVec.ofNat 32 (bitsValue (((bytesBits bs).drop (r * i)).take r))⟩) ∧
    (∀ i, r * i ≤ 8 * bs.length → 8 * bs.length < r * i + r →
      ∃ t u, repeatExec i (.rdCharW r) s = some t ∧ exec (.rdCharW r) t = .next u ∧
        u.finalBeat = some ⟨true, .eosErr, 0⟩ ∧ u.cur = .eos)

/-! ### RDSTR (`44_string_read.md`) -/

/-- R112 [derived], R113 [decision]: RDSTR from a byte-aligned cursor, every port transaction in order. -/
def Obligations.AlignedRdStrDeliversEveryByte : Prop :=
  ∀ (s : State) (c : Byte), s.cur = .byte c → s.n = 8 → s.src.ending = .eos →
    exec .rdStr s = .next { s with cur := .eos, n := 0, src := ⟨[], .eos⟩,
                                   ports := s.ports ++ stringEvents c s.src.bytes } ∧
    resultOf (beats (stringEvents c s.src.bytes)) [] = some (.chars (c :: s.src.bytes))

/-- R112 [derived], R113 [decision], R59 [decision]: RDSTR in the middle of a byte fails, every port transaction in
order: `floor(|R| / 8)` void data beats, each after its pull, before the EOS answer and the error. -/
def Obligations.MidByteRdStrFails : Prop :=
  ∀ (s : State) (c : Byte), s.cur = .byte c → 1 ≤ s.n.val → s.n.val ≤ 7 → s.src.ending = .eos →
    exec .rdStr s = .next { s with cur := .eos, n := 0, src := ⟨[], .eos⟩,
                                   ports := s.ports ++ stringPulls s.n.val c s.src.bytes ++
                                     [.pull .eos, .beat ⟨true, .eosErr, 0⟩] } ∧
    (beats (stringPulls s.n.val c s.src.bytes)).length = s.remaining.length / 8 ∧
    (∀ b ∈ beats (stringPulls s.n.val c s.src.bytes), b.last = false ∧ b.status = .ok) ∧
    transfers (stringPulls s.n.val c s.src.bytes) = s.src.bytes.length ∧
    resultOf (beats (stringPulls s.n.val c s.src.bytes) ++ [⟨true, .eosErr, 0⟩]) [] = some (.error .endOfStream)

/-- R110 case 1, R59 [decision]: RDSTR on an empty cursor. -/
def Obligations.EmptyRdStrFails : Prop :=
  ∀ s : State, s.cur = .eos → exec .rdStr s = .next { s with ports := s.ports ++ [.beat ⟨true, .eosErr, 0⟩] }

/-- R111 [derived] (and R112 [derived], by `n`): when RDSTR succeeds on a source that ends, and that its characters are
the remaining bits cut into eights. -/
def Obligations.RdStrSucceedsExactlyWhenAligned : Prop :=
  ∀ s : State, s.Inv → s.src.finite = true →
    ∃ t b, exec .rdStr s = .next t ∧ t.finalBeat = some b ∧ t.cur = .eos ∧ t.n = 0 ∧
      (b.status = .ok ↔ s.cur ≠ .eos ∧ s.remaining.length % 8 = 0) ∧
      (b.status = .ok ↔ s.n = 8) ∧ (b.status ≠ .ok → b.status = .eosErr) ∧
      (b.status = .ok → ∃ cs, resultOf ((beats t.ports).drop (beats s.ports).length) [] = some (.chars cs) ∧
        bytesBits cs = s.remaining)

/-- R114 [derived]: on a source that never ends RDSTR never completes (the model's stop: entry 7). -/
def Obligations.RdStrNeverCompletesOnAnEndlessSource : Prop :=
  ∀ (s : State) (stream index : Nat), s.Inv → s.cur ≠ .eos → s.src.ending = .endless stream index →
    exec .rdStr s = .fault .stringEndless

/-! ### Errors (`60_exceptions.md`) -/

/-- R121: a width outside the range, whatever the state; and nothing else is answered with WIDTH_ERR. -/
def Obligations.BadWidthAnswersWidthError : Prop :=
  Status.widthErr.code = 2 ∧
  (∀ (s : State) (r : Nat), r = 0 ∨ 17 ≤ r →
    exec (.rdCharW r) s = .next { s with ports := s.ports ++ [.beat ⟨true, .widthErr, 0⟩] }) ∧
  (∀ (s : State) (r : Nat), r = 0 ∨ 33 ≤ r →
    exec (.rdIntW r) s = .next { s with ports := s.ports ++ [.beat ⟨true, .widthErr, 0⟩] }) ∧
  (∀ (i : Instr) (s t : State) (b : Beat), exec i s = .next t → t.finalBeat = some b → b.status = .widthErr →
    ∃ r, i = .rdCharW r ∧ (r = 0 ∨ 17 ≤ r) ∨ i = .rdIntW r ∧ (r = 0 ∨ 33 ≤ r))

/-- R134 [derived]: which command word returns which status, on a source that ends and, but for RDSTR, on one that never
does, where infinitely many bits are as good as the widest field's 32. Every one of these commands completes. -/
def Obligations.StatusOfEveryCommand : Prop :=
  ∀ (w : CmdWord) (s : State), s.Inv → s.src.answers = true → (decode w = .instr .rdStr → s.src.finite = true) →
    ∃ t b, runWord w s = .next t ∧ t.finalBeat = some b ∧ b.last = true ∧
      b.status = (match decode w, s.remainingLength with
        | .instr i, .finite len => expectedStatus i len
        | .instr i, .infinite => expectedStatus i 32
        | .reserved _, _ => .illegalCmd)

/-- R124 [derived]: after an EOS_ERR response the cursor is Exhausted and the source drained; on an empty cursor nothing
changed. -/
def Obligations.EosErrorLeavesNothing : Prop :=
  ∀ (i : Instr) (s t : State) (b : Beat), s.Inv → exec i s = .next t → t.finalBeat = some b → b.status = .eosErr →
    t.cur = .eos ∧ t.n = 0 ∧ t.bound = s.bound ∧ (∀ k, fieldWidth i = some k → s.remaining.length < k) ∧
    (s.cur = .eos → t = { s with ports := s.ports ++ [.beat ⟨true, .eosErr, 0⟩] }) ∧
    (s.cur ≠ .eos → t.src = ⟨[], .eos⟩ ∧ pulledBytes t.ports = pulledBytes s.ports ++ s.src.bytes ∧
      eosAnswers t.ports = 1 ∧ lastAnswer t.ports = some .eos)

/-- R125: WIDTH_ERR and ILLEGAL_CMD leave everything as it was, and the next command behaves as if the failing one had
not been issued. -/
def Obligations.WidthAndIllegalErrorsChangeNothing : Prop :=
  ∀ (w : CmdWord) (s t : State) (b : Beat), runWord w s = .next t → t.finalBeat = some b →
    (b.status = .widthErr ∨ b.status = .illegalCmd) →
    t = { s with ports := s.ports ++ [.beat b] } ∧
    ∀ (next : CmdWord) (u : State), runWord next s = .next u →
      ∃ es, u.ports = s.ports ++ es ∧ runWord next t = .next { u with ports := t.ports ++ es }

/-- R17, R18 [decision, derived] item 5, R44 [derived], R123 [decision], R129: on an empty cursor every instruction
answers at once and changes nothing; a bad width is reported before the end of the stream. -/
def Obligations.ExhaustedCursorAnswersEveryCommand : Prop :=
  ∀ (i : Instr) (s : State), s.cur = .eos →
    exec i s = .next { s with ports := s.ports ++ [.beat ⟨true, expectedStatus i 0,
      match i with
      | .existsQ => if s.bound = true then 1 else 0
      | .isEmpty => 1
      | _ => 0⟩] }

/-! ### The whole machine (`10_state.md`) -/

/-- R56 [decision], R61 [decision], R126: a response is pulls and, for RDSTR alone, data beats, then one final beat;
earlier results stand. -/
def Obligations.ResponseEndsWithOneFinalBeat : Prop :=
  ∀ (i : Instr) (s t : State), exec i s = .next t →
    ∃ es b, t.ports = s.ports ++ es ++ [.beat b] ∧ b.last = true ∧ (b.status ≠ .ok → b.data = 0) ∧
      (∀ e ∈ es, match e with
        | .pull _ => True
        | .beat c => c.last = false ∧ c.status = .ok
        | .cmd _ => False) ∧
      (i ≠ .rdStr → beats es = [])

/-- R10, R12, R24: the frame of every instruction: the binding, the environment's plans and the earlier logs stay, and
the buffer and the source move only by a pull. -/
def Obligations.InstructionFrame : Prop :=
  ∀ (i : Instr) (s t : State), exec i s = .next t →
    t.priming = s.priming ∧ t.bound = s.bound ∧ t.inputs = s.inputs ∧ t.past = s.past ∧
    (transfers t.ports = transfers s.ports → t.cur = s.cur ∧ t.src = s.src) ∧
    (t.cur ≠ s.cur → lastAnswer (t.ports.drop s.ports.length) = some t.cur)

/-- R12, R17: between resets `bound` never changes and nothing leaves Exhausted. -/
def Obligations.OnlyResetRebindsOrRevives : Prop :=
  ∀ s t : State, s.priming = false → s.noResetNext = true → step s = .next t →
    t.priming = false ∧ t.bound = s.bound ∧
    (s.cur = .eos → t.cur = .eos ∧ t.n = s.n ∧ t.src = s.src ∧ transfers t.ports = transfers s.ports)

/-- R15 [derived]: the stream position, which never falls. -/
def Obligations.StreamPosition : Prop :=
  (∀ (w : CmdWord) (s t : State) (op : BitVec 4), decode w = .reserved op → runWord w s = .next t → t.pos = s.pos) ∧
  ∀ (i : Instr) (s t : State) (b : Beat), s.Inv → exec i s = .next t → t.finalBeat = some b →
    s.pos ≤ t.pos ∧
    (∀ k, fieldWidth i = some k → b.status = .ok → t.pos = s.pos + k) ∧
    (i = .rdStr → b.status = .ok → t.pos + 8 = s.pos + 8 * ((beats t.ports).length - (beats s.ports).length)) ∧
    (fieldWidth i = none → i ≠ .rdStr → t.pos = s.pos) ∧
    (b.status = .widthErr → t.pos = s.pos) ∧
    (s.cur = .eos → t.pos = s.pos) ∧
    (b.status = .eosErr → t.pos = s.pos + s.remaining.length ∧ t.pos = 8 * t.pulled)

/-- R18 [decision, derived] items 1 to 4, R10, R23 [decision], R44 [derived], R47 [derived]: the invariant holds at
reset, with any strap and source. -/
def Obligations.InvariantAtReset : Prop :=
  State.reset.Inv ∧ ∀ (srcOk : Bool) (src : Source), (State.atReset srcOk src).Inv

/-- R18 [decision, derived] items 1 to 4, R10, R23 [decision], R44 [derived], R47 [derived]: every step keeps the
invariant. -/
def Obligations.StepKeepsTheInvariant : Prop :=
  ∀ s t : State, s.Inv → step s = .next t → t.Inv

/-- No instruction is refused, and the one fault that marks a broken cursor never happens where the invariant holds. -/
def Obligations.NothingIsRefused : Prop :=
  (∀ (s : State) (r : Refusal), step s ≠ .refused r) ∧
  (∀ s : State, s.Inv → step s ≠ .fault .brokenCursor)

/-- R150: a source that answers every pull and ends lets every step complete. -/
def Obligations.FiniteSourceNeverHangs : Prop :=
  ∀ s : State, s.Inv → s.src.finite = true → ∃ t, step s = .next t

/-- R150: every command but RDSTR completes on a source that answers every pull, ending or not. -/
def Obligations.AnsweringSourceCompletesEveryRead : Prop :=
  ∀ (i : Instr) (s : State), s.Inv → s.src.answers = true → i ≠ .rdStr → ∃ t, exec i s = .next t

/-- R31, R150, R113 [decision]: a read that needs a byte from a source that falls silent hangs, after pulling every byte
that is listed before the silence, and the fault's log holds those pulls and, for RDSTR, a data beat after each. A read
that the listed bytes satisfy, with a bit to spare, completes. That the hang is this fault is the model's choice
(entry 6). -/
def Obligations.SilentSourceHangsTheRead : Prop :=
  ∀ (s : State) (b : Byte), s.cur = .byte b → s.n ≠ 0 → s.src.ending = .silent →
    (∀ i k, fieldWidth i = some k → s.n.val + 8 * s.src.bytes.length ≤ k →
      exec i s = .fault (.sourceSilent (s.ports ++ s.src.bytes.map fun c => .pull (.byte c)))) ∧
    exec .rdStr s = .fault (.sourceSilent (s.ports ++ stringPulls s.n.val b s.src.bytes)) ∧
    (∀ i k, fieldWidth i = some k → k < s.n.val + 8 * s.src.bytes.length →
      ∃ t, exec i s = .next t ∧
        t.finalBeat = some ⟨true, .ok, BitVec.ofNat 32 (bitsValue (s.firstBits k))⟩)

/-- R22 [decision]: the register image. -/
def Obligations.RegisterImage : Prop :=
  ∀ s : State,
    (s.cur = .eos → s.curEos = 1 ∧ s.curByte = 0) ∧
    (∀ b, s.cur = .byte b → s.curEos = 0 ∧ s.curByte = b) ∧
    s.nReg.toNat = s.n.val ∧ s.nReg.toNat ≤ 8 ∧
    (s.priming = false → (s.lifecycle = .exhausted ↔ s.curEos = 1)) ∧
    (s.priming = true → s.lifecycle = .priming)

/-- R8 [derived]: the remaining bit stream and its length on every source. On one that is not endless, `R` is the listed
bits; on an endless one it has no end; each bit is one of the buffered byte's, or of the bytes still in the source. -/
def Obligations.RemainingStreamOnEverySource : Prop :=
  ∀ s : State,
    (s.cur = .eos → s.remainingLength = .finite 0 ∧ ∀ k, s.bitAt k = none) ∧
    ((∀ stream index, s.src.ending ≠ .endless stream index) →
      (∀ k, s.bitAt k = s.remaining[k]?) ∧ s.remainingLength = .finite s.remaining.length) ∧
    (∀ c stream index, s.cur = .byte c → s.src.ending = .endless stream index →
      s.remainingLength = .infinite ∧
      ∀ count, s.firstBits (s.n.val + 8 * (s.src.bytes.length + count)) =
        lowBits s.n.val c ++ bytesBits (s.src.bytes ++ freeBytes stream index count)) ∧
    (∀ k, (s.bitAt k).isSome = s.remainingLength.atLeast (k + 1)) ∧
    (∀ len, s.Inv → s.remainingLength = .finite len → len % 8 = s.n.val % 8)
end

