-- ==== Sys2Proof/Laws/State.lean ====
section
/-! SUPPORT. One lemma for each field of each state update, so that no proof unfolds a record update. -/

namespace Sys2Proof.Machine

section log
variable (s : State) (e : PortEvent)
@[simp] theorem State.log_priming : (s.log e).priming = s.priming := rfl
@[simp] theorem State.log_cur : (s.log e).cur = s.cur := rfl
@[simp] theorem State.log_n : (s.log e).n = s.n := rfl
@[simp] theorem State.log_bound : (s.log e).bound = s.bound := rfl
@[simp] theorem State.log_src : (s.log e).src = s.src := rfl
@[simp] theorem State.log_inputs : (s.log e).inputs = s.inputs := rfl
@[simp] theorem State.log_ports : (s.log e).ports = s.ports ++ [e] := rfl
@[simp] theorem State.log_past : (s.log e).past = s.past := rfl
@[simp] theorem State.log_isEmpty : (s.log e).isEmpty = s.isEmpty := rfl
@[simp] theorem State.log_remaining : (s.log e).remaining = s.remaining := rfl
end log

section load
variable (s : State) (a : ByteOrEos)
@[simp] theorem State.load_priming : (s.load a).priming = s.priming := by cases a <;> rfl
@[simp] theorem State.load_cur : (s.load a).cur = a := by cases a <;> rfl
@[simp] theorem State.load_bound : (s.load a).bound = s.bound := by cases a <;> rfl
@[simp] theorem State.load_src : (s.load a).src = s.src := by cases a <;> rfl
@[simp] theorem State.load_inputs : (s.load a).inputs = s.inputs := by cases a <;> rfl
@[simp] theorem State.load_ports : (s.load a).ports = s.ports := by cases a <;> rfl
@[simp] theorem State.load_past : (s.load a).past = s.past := by cases a <;> rfl
@[simp] theorem State.load_byte_n (b : Byte) : (s.load (.byte b)).n = 8 := rfl
@[simp] theorem State.load_eos_n : (s.load .eos).n = 0 := rfl
end load

section setN
variable (s : State) (m : Fin 9)
@[simp] theorem State.setN_priming : (s.setN m).priming = s.priming := rfl
@[simp] theorem State.setN_cur : (s.setN m).cur = s.cur := rfl
@[simp] theorem State.setN_bound : (s.setN m).bound = s.bound := rfl
@[simp] theorem State.setN_src : (s.setN m).src = s.src := rfl
@[simp] theorem State.setN_inputs : (s.setN m).inputs = s.inputs := rfl
@[simp] theorem State.setN_ports : (s.setN m).ports = s.ports := rfl
@[simp] theorem State.setN_past : (s.setN m).past = s.past := rfl
@[simp] theorem State.setN_isEmpty : (s.setN m).isEmpty = s.isEmpty := rfl
@[simp] theorem State.setN_n : (s.setN m).n = m := rfl
end setN

section accept
variable (s : State) (w : CmdWord) (rest : List Input)
@[simp] theorem State.accept_priming : (s.accept w rest).priming = s.priming := rfl
@[simp] theorem State.accept_cur : (s.accept w rest).cur = s.cur := rfl
@[simp] theorem State.accept_n : (s.accept w rest).n = s.n := rfl
@[simp] theorem State.accept_bound : (s.accept w rest).bound = s.bound := rfl
@[simp] theorem State.accept_src : (s.accept w rest).src = s.src := rfl
@[simp] theorem State.accept_inputs : (s.accept w rest).inputs = rest := rfl
@[simp] theorem State.accept_ports : (s.accept w rest).ports = s.ports ++ [.cmd w] := rfl
@[simp] theorem State.accept_past : (s.accept w rest).past = s.past := rfl
end accept

section resetBlock
variable (p : ResetPulse) (s : State)
@[simp] theorem resetBlock_priming : (resetBlock p s).priming = true := rfl
@[simp] theorem resetBlock_cur : (resetBlock p s).cur = .eos := rfl
@[simp] theorem resetBlock_n : (resetBlock p s).n = 0 := rfl
@[simp] theorem resetBlock_bound : (resetBlock p s).bound = p.srcOk := rfl
@[simp] theorem resetBlock_src : (resetBlock p s).src = p.attach.getD s.src := rfl
@[simp] theorem resetBlock_inputs : (resetBlock p s).inputs = s.inputs := rfl
@[simp] theorem resetBlock_ports : (resetBlock p s).ports = [] := rfl
@[simp] theorem resetBlock_past : (resetBlock p s).past = s.past ++ [s.ports] := rfl
end resetBlock

theorem State.isEmpty_iff (s : State) : s.isEmpty = true ↔ s.cur = .eos := by
  unfold State.isEmpty; cases s.cur <;> simp

end Sys2Proof.Machine
end

