-- ==== Sys2Proof/Laws/Ops.lean ====
section
/-! SUPPORT. The shared operations, each said once: what a refill, a bit, a character can do. Later proofs cite these. -/

namespace Sys2Proof.Machine

section bind
variable {α β γ : Type}
@[simp] theorem Res.bind_ok (v : α) (s : State) (f : α → State → Res β) : (Res.ok v s).bind f = f v s := rfl
@[simp] theorem Res.bind_err (k : ErrKind) (s : State) (f : α → State → Res β) : (Res.err k s).bind f = .err k s := rfl
@[simp] theorem Res.bind_stuck (e : Fault) (f : α → State → Res β) : (Res.stuck e).bind f = .stuck e := rfl

theorem Res.bind_assoc (r : Res α) (f : α → State → Res β) (g : β → State → Res γ) :
    (r.bind f).bind g = r.bind fun v s => (f v s).bind g := by
  cases r <;> rfl
end bind

/-- The state after a pull answered `a` by a source that is then `src` is loaded into the buffer (R34). -/
def State.fill (s : State) (a : ByteOrEos) (src : Source) : State := ({ s with src := src }.log (.pull a)).load a

section fill
variable (s : State) (a : ByteOrEos) (src : Source)
@[simp] theorem State.fill_priming : (s.fill a src).priming = s.priming := by simp [State.fill]
@[simp] theorem State.fill_cur : (s.fill a src).cur = a := by simp [State.fill]
@[simp] theorem State.fill_bound : (s.fill a src).bound = s.bound := by simp [State.fill]
@[simp] theorem State.fill_src : (s.fill a src).src = src := by simp [State.fill]
@[simp] theorem State.fill_inputs : (s.fill a src).inputs = s.inputs := by simp [State.fill]
@[simp] theorem State.fill_ports : (s.fill a src).ports = s.ports ++ [.pull a] := by simp [State.fill]
@[simp] theorem State.fill_past : (s.fill a src).past = s.past := by simp [State.fill]
@[simp] theorem State.fill_byte_n (b : Byte) : (s.fill (.byte b) src).n = 8 := rfl
@[simp] theorem State.fill_eos_n : (s.fill .eos src).n = 0 := rfl

/-- A refill overwrites the bit count. -/
@[simp] theorem State.fill_set_n (m : Fin 9) : (s.setN m).fill a src = s.fill a src := by
  cases a <;> rfl
end fill

/-- A refill whose pull is answered. -/
theorem refill_of_next {s : State} {a : ByteOrEos} {src : Source} (h : s.src.next = some (a, src)) :
    refill s = .ok () (s.fill a src) := by
  simp [refill, srcNext, h, State.fill]

/-- A refill whose pull is never answered (R150). -/
theorem refill_of_silent {s : State} (h : s.src.next = none) : refill s = .stuck (.sourceSilent s.ports) := by
  simp [refill, srcNext, h]

/-- Everything a refill can do. -/
theorem refill_cases (s : State) :
    (∃ a src, s.src.next = some (a, src) ∧ refill s = .ok () (s.fill a src)) ∨
    (s.src.next = none ∧ refill s = .stuck (.sourceSilent s.ports)) := by
  cases h : s.src.next with
  | none => exact .inr ⟨rfl, refill_of_silent h⟩
  | some p => exact .inl ⟨p.1, p.2, rfl, refill_of_next h⟩

/-- R80: empty at entry. -/
theorem readBit_of_eos {s : State} (h : s.cur = .eos) : readBit s = .err .endOfStream s := by
  simp [readBit, h]

/-- R80: a bit that is not the buffered byte's last. -/
theorem readBit_of_more {s : State} {b : Byte} (h : s.cur = .byte b) (h0 : s.n ≠ 0) (h1 : s.n ≠ 1) :
    readBit s = .ok (b.getLsbD (s.n.val - 1)) (s.setN (s.n - 1)) := by
  have hv : (s.n - 1).val = s.n.val - 1 := by
    revert h0; generalize s.n = m; revert m; decide
  have h2 : s.n - 1 ≠ 0 := by
    revert h1; generalize s.n = m; revert m; decide
  simp [readBit, h, h0, h2, hv]

/-- R80: the last bit of the buffered byte, with the eager refill. -/
theorem readBit_of_last {s : State} {b : Byte} (h : s.cur = .byte b) (h1 : s.n = 1) :
    readBit s = (refill (s.setN 0)).bind fun _ t => .ok (b.getLsbD 0) t := by
  simp [readBit, h, h1]

/-- R80 (e): what no entry state is. -/
theorem readBit_of_broken {s : State} {b : Byte} (h : s.cur = .byte b) (h0 : s.n = 0) :
    readBit s = .stuck .brokenCursor := by
  simp [readBit, h, h0]

/-- R90: empty at entry. -/
theorem readChar_of_eos {s : State} (h : s.cur = .eos) : readChar s = .err .endOfStream s := by
  simp [readChar, h]

/-- R90: what no entry state is. -/
theorem readChar_of_broken {s : State} {b : Byte} (h : s.cur = .byte b) (h0 : s.n = 0) :
    readChar s = .stuck .brokenCursor := by
  simp [readChar, h, h0]

/-- R90, the fast path. -/
theorem readChar_of_aligned {s : State} {b : Byte} (h : s.cur = .byte b) (h8 : s.n = 8) :
    readChar s = (refill s).bind fun _ t => .ok b t := by
  simp [readChar, h, h8, State.byteAligned]

/-- R90, the slow path. -/
theorem readChar_of_midbyte {s : State} {b : Byte} (h : s.cur = .byte b) (h0 : s.n ≠ 0) (h8 : s.n ≠ 8) :
    readChar s = (refill s).bind fun _ t =>
      match t.cur with
      | .eos => .err .endOfStream t
      | .byte c => .ok (b <<< (8 - s.n.val) ||| c >>> s.n.val) (t.setN s.n) := by
  rw [readChar, h]
  exact (if_neg h0).trans (if_neg (by simpa [State.byteAligned] using h8))

/-- Everything a character read can do, with the pull's answer in hand. -/
theorem readChar_cases (s : State) :
    (s.cur = .eos ∧ readChar s = .err .endOfStream s) ∨
    (∃ b, s.cur = .byte b ∧ s.n = 0 ∧ readChar s = .stuck .brokenCursor) ∨
    (∃ b, s.cur = .byte b ∧ s.n ≠ 0 ∧ s.src.next = none ∧ readChar s = .stuck (.sourceSilent s.ports)) ∨
    (∃ b a src, s.cur = .byte b ∧ s.n = 8 ∧ s.src.next = some (a, src) ∧ readChar s = .ok b (s.fill a src)) ∨
    (∃ b src, s.cur = .byte b ∧ s.n ≠ 0 ∧ s.n ≠ 8 ∧ s.src.next = some (.eos, src) ∧
      readChar s = .err .endOfStream (s.fill .eos src)) ∨
    (∃ b c src, s.cur = .byte b ∧ s.n ≠ 0 ∧ s.n ≠ 8 ∧ s.src.next = some (.byte c, src) ∧
      readChar s = .ok (b <<< (8 - s.n.val) ||| c >>> s.n.val) ((s.fill (.byte c) src).setN s.n)) := by
  cases hc : s.cur with
  | eos => exact .inl ⟨rfl, readChar_of_eos hc⟩
  | byte b =>
    refine .inr ?_
    by_cases h0 : s.n = 0
    · exact .inl ⟨b, rfl, h0, readChar_of_broken hc h0⟩
    refine .inr ?_
    rcases refill_cases s with ⟨a, src, hn, hr⟩ | ⟨hn, hr⟩
    · refine .inr ?_
      by_cases h8 : s.n = 8
      · exact .inl ⟨b, a, src, rfl, h8, hn, by rw [readChar_of_aligned hc h8, hr]; rfl⟩
      · refine .inr ?_
        cases a with
        | eos => exact .inl ⟨b, src, rfl, h0, h8, hn, by rw [readChar_of_midbyte hc h0 h8, hr]; rfl⟩
        | byte c => exact .inr ⟨b, c, src, rfl, h0, h8, hn, by rw [readChar_of_midbyte hc h0 h8, hr]; rfl⟩
    · refine .inl ⟨b, rfl, h0, hn, ?_⟩
      by_cases h8 : s.n = 8
      · rw [readChar_of_aligned hc h8, hr]; rfl
      · rw [readChar_of_midbyte hc h0 h8, hr]; rfl

/-- Everything a bit read can do, with the pull's answer in hand. -/
theorem readBit_cases (s : State) :
    (s.cur = .eos ∧ readBit s = .err .endOfStream s) ∨
    (∃ b, s.cur = .byte b ∧ s.n = 0 ∧ readBit s = .stuck .brokenCursor) ∨
    (∃ b, s.cur = .byte b ∧ s.n ≠ 0 ∧ s.n ≠ 1 ∧
      readBit s = .ok (b.getLsbD (s.n.val - 1)) (s.setN (s.n - 1))) ∨
    (∃ b, s.cur = .byte b ∧ s.n = 1 ∧ s.src.next = none ∧ readBit s = .stuck (.sourceSilent s.ports)) ∨
    (∃ b a src, s.cur = .byte b ∧ s.n = 1 ∧ s.src.next = some (a, src) ∧
      readBit s = .ok (b.getLsbD 0) (s.fill a src)) := by
  cases hc : s.cur with
  | eos => exact .inl ⟨rfl, readBit_of_eos hc⟩
  | byte b =>
    refine .inr ?_
    by_cases h0 : s.n = 0
    · exact .inl ⟨b, rfl, h0, readBit_of_broken hc h0⟩
    refine .inr ?_
    by_cases h1 : s.n = 1
    · refine .inr ?_
      rcases refill_cases (s.setN 0) with ⟨a, src, hn, hr⟩ | ⟨hn, hr⟩
      · exact .inr ⟨b, a, src, rfl, h1, hn, by rw [readBit_of_last hc h1, hr, State.fill_set_n]; rfl⟩
      · exact .inl ⟨b, rfl, h1, hn, by rw [readBit_of_last hc h1, hr]; rfl⟩
    · exact .inl ⟨b, rfl, h0, h1, by rw [readBit_of_more hc h0 h1]⟩

/-- The two loops, unrolled once. -/
theorem readBits_succ {w : Nat} (k : Nat) (x : BitVec w) (s : State) :
    readBits (k + 1) x s =
      (readBit s).bind fun b t => readBits k (x <<< 1 ||| (BitVec.ofBool b).setWidth w) t := rfl

theorem readChars_succ {w : Nat} (k : Nat) (x : BitVec w) (s : State) :
    readChars (k + 1) x s = (readChar s).bind fun c t => readChars k (x <<< 8 ||| c.setWidth w) t := rfl

end Sys2Proof.Machine
end

