-- ==== Sys2Proof/Laws/Bits.lean ====
section
/-! SUPPORT. Every multi-bit read is a run of single bits (R45, R92): `takeBits` lists the bits, `pushBits` makes the
number of them, and each loop of the model is the two together, for every state. -/

namespace Sys2Proof.Machine

/-- The next `k` bits, one `ReadBit()` after the other. -/
def takeBits : Nat → State → Res (List Bool)
  | 0, s => .ok [] s
  | k + 1, s => (readBit s).bind fun b t => (takeBits k t).bind fun bs u => .ok (b :: bs) u

/-- The accumulator after the bits are shifted in, first bit most significant. -/
def pushBits {w : Nat} (x : BitVec w) : List Bool → BitVec w
  | [] => x
  | b :: bs => pushBits (x <<< 1 ||| (BitVec.ofBool b).setWidth w) bs

@[simp] theorem takeBits_zero (s : State) : takeBits 0 s = .ok [] s := rfl

theorem takeBits_succ (k : Nat) (s : State) :
    takeBits (k + 1) s = (readBit s).bind fun b t => (takeBits k t).bind fun bs u => .ok (b :: bs) u := rfl

theorem pushBits_append {w : Nat} (x : BitVec w) (as bs : List Bool) :
    pushBits x (as ++ bs) = pushBits (pushBits x as) bs := by
  induction as generalizing x with
  | nil => rfl
  | cons a as ih => exact ih _

theorem takeBits_add (j k : Nat) (s : State) :
    takeBits (j + k) s = (takeBits j s).bind fun as t => (takeBits k t).bind fun bs u => .ok (as ++ bs) u := by
  induction j generalizing s with
  | zero => simp; cases takeBits k s <;> rfl
  | succ j ih =>
    rw [Nat.succ_add, takeBits_succ, takeBits_succ, Res.bind_assoc]
    congr 1; funext b t
    rw [ih, Res.bind_assoc, Res.bind_assoc]
    congr 1; funext as u
    rw [Res.bind_assoc, Res.bind_ok]
    rfl

theorem readBits_eq_takeBits {w : Nat} (k : Nat) (x : BitVec w) (s : State) :
    readBits k x s = (takeBits k s).bind fun bs t => .ok (pushBits x bs) t := by
  induction k generalizing x s with
  | zero => rfl
  | succ k ih =>
    rw [readBits_succ, takeBits_succ, Res.bind_assoc]
    congr 1; funext b t
    rw [ih, Res.bind_assoc]; rfl

theorem refill_setN (s : State) (m : Fin 9) : refill (s.setN m) = refill s := by
  rcases refill_cases (s.setN m) with ⟨a, src, hn, hr⟩ | ⟨hn, hr⟩
  · rw [hr, refill_of_next (by simpa using hn), State.fill_set_n]
  · rw [hr, refill_of_silent (by simpa using hn)]; rfl

/-- All the bits left in the buffered byte: one refill (R35). -/
theorem takeBits_of_byte {b : Byte} (m : Nat) {s : State} (h : s.cur = .byte b) (hn : s.n.val = m + 1) :
    takeBits (m + 1) s = (refill s).bind fun _ t => .ok (lowBits (m + 1) b) t := by
  induction m generalizing s with
  | zero =>
    have h1 : s.n = 1 := Fin.ext hn
    rw [takeBits_succ, readBit_of_last h h1, refill_setN, Res.bind_assoc]
    rfl
  | succ m ih =>
    have h0 : s.n ≠ 0 := fun e => by simp [e] at hn
    have h1 : s.n ≠ 1 := fun e => by simp [e] at hn
    have hv : (s.n - 1).val = m + 1 := by
      have : (s.n - 1).val = s.n.val - 1 := by revert h0; generalize s.n = j; revert j; decide
      omega
    rw [takeBits_succ, readBit_of_more h h0 h1, Res.bind_ok, ih (by simpa using h) (by simpa using hv), refill_setN,
      Res.bind_assoc]
    congr 1; funext _ t
    rw [Res.bind_ok, hn]; rfl

/-- Fewer bits than the buffered byte holds: no pull, and the count goes down (R35, R80). -/
theorem takeBits_of_within {b : Byte} (k : Nat) {s : State} (h : s.cur = .byte b) (hk : k < s.n.val) :
    takeBits k s = .ok ((lowBits s.n.val b).take k) (s.setN ⟨s.n.val - k, by omega⟩) := by
  induction k generalizing s with
  | zero => simp [State.setN]
  | succ k ih =>
    have h0 : s.n ≠ 0 := fun e => by simp [e] at hk
    have h1 : s.n ≠ 1 := fun e => by simp [e] at hk
    have hv : (s.n - 1).val = s.n.val - 1 := by revert h0; generalize s.n = j; revert j; decide
    obtain ⟨m, hm⟩ : ∃ m, s.n.val = m + 1 := ⟨s.n.val - 1, by omega⟩
    rw [takeBits_succ, readBit_of_more h h0 h1, Res.bind_ok, ih (by simpa using h) (by simp; omega), Res.bind_ok]
    have hl : (lowBits s.n.val b).take (k + 1) = b.getLsbD (s.n.val - 1) :: (lowBits (s.n.val - 1) b).take k := by
      rw [hm]; rfl
    rw [hl]
    simp only [State.setN_n, hv]
    congr 1
    simp only [State.setN, State.mk.injEq, true_and, and_true]
    exact Fin.ext (by simp; omega)

theorem takeBits_of_eos {s : State} (h : s.cur = .eos) (k : Nat) : takeBits (k + 1) s = .err .endOfStream s := by
  rw [takeBits_succ, readBit_of_eos h]; rfl

/-- Which bit of the list each bit of the accumulator is. -/
theorem getLsbD_pushBits {w : Nat} (bs : List Bool) (x : BitVec w) (i : Nat) :
    (pushBits x bs).getLsbD i =
      (decide (i < w) && if i < bs.length then bs.reverse.getD i false else x.getLsbD (i - bs.length)) := by
  induction bs generalizing x with
  | nil =>
    by_cases h : i < w <;> simp [pushBits, h]
    exact BitVec.getLsbD_of_ge x i (by omega)
  | cons b bs ih =>
    have hx : ∀ j, (x <<< 1 ||| (BitVec.ofBool b).setWidth w).getLsbD j =
        (decide (j < w) && if j = 0 then b else x.getLsbD (j - 1)) := by
      intro j
      rcases j with _ | j
      · cases w <;> simp
      · cases w <;> simp
    simp only [pushBits, ih, hx, List.length_cons, List.reverse_cons, List.getD_eq_getElem?_getD]
    by_cases h : i < w
    · by_cases h1 : i < bs.length
      · simp [h, h1, show i < bs.length + 1 by omega]
      · by_cases h2 : i = bs.length
        · subst h2
          simp [h]
          exact fun _ => by omega
        · simp [h1, show ¬ i < bs.length + 1 by omega, show i - bs.length ≠ 0 by omega, Nat.sub_sub, h]
          omega
    · simp [h]

/-- R91: the slow path's two halves are the unconsumed bits of the old byte and the first bits of the new one. -/
theorem pushBits_midbyte (b c : Byte) (m : Nat) (h1 : 1 ≤ m) (h7 : m ≤ 7) :
    pushBits (0 : BitVec 8) (lowBits m b ++ (lowBits 8 c).take (8 - m)) = b <<< (8 - m) ||| c >>> m := by
  apply BitVec.eq_of_getLsbD_eq
  intro i hi
  rw [getLsbD_pushBits]
  interval_cases m <;> interval_cases i <;> simp [lowBits]

theorem pushBits_lowBits_eight (b : Byte) : pushBits (0 : BitVec 8) (lowBits 8 b) = b := by
  apply BitVec.eq_of_getLsbD_eq
  intro i hi
  rw [getLsbD_pushBits]
  interval_cases i <;> simp [lowBits]

/-- R92: `ReadChar()` is eight `ReadBit()`s, in value, state, pulls and errors, from every state. -/
theorem readChar_eq_takeBits (s : State) :
    readChar s = (takeBits 8 s).bind fun bs t => .ok (pushBits (0 : BitVec 8) bs) t := by
  cases hc : s.cur with
  | eos => rw [readChar_of_eos hc, takeBits_of_eos hc]; rfl
  | byte b =>
    by_cases h0 : s.n = 0
    · rw [readChar_of_broken hc h0, takeBits_succ, readBit_of_broken hc h0]; rfl
    by_cases h8 : s.n = 8
    · have hn : s.n.val = 7 + 1 := by rw [h8]; rfl
      rw [readChar_of_aligned hc h8, takeBits_of_byte 7 hc hn, Res.bind_assoc]
      congr 1; funext _ t
      rw [Res.bind_ok, pushBits_lowBits_eight]
    · have hlo : 1 ≤ s.n.val := Nat.one_le_iff_ne_zero.2 fun e => h0 (Fin.ext e)
      have hhi : s.n.val ≤ 7 := by
        have : s.n.val ≠ 8 := fun e => h8 (Fin.ext e)
        omega
      obtain ⟨m, hm⟩ : ∃ m, s.n.val = m + 1 := ⟨s.n.val - 1, by omega⟩
      have h9 : takeBits 8 s = takeBits ((m + 1) + (8 - (m + 1))) s := by congr 1; omega
      rw [readChar_of_midbyte hc h0 h8, h9, takeBits_add, takeBits_of_byte m hc hm, Res.bind_assoc, Res.bind_assoc]
      rcases refill_cases s with ⟨a, src, -, hr⟩ | ⟨-, hr⟩
      · rw [hr]
        cases a with
        | eos =>
          obtain ⟨j, hj⟩ : ∃ j, 8 - (m + 1) = j + 1 := ⟨7 - (m + 1), by omega⟩
          simp [hj, takeBits_of_eos]
        | byte c =>
          have hw : 8 - (m + 1) < (s.fill (.byte c) src).n.val := by simp; omega
          simp only [Res.bind_ok, State.fill_cur, takeBits_of_within _ (State.fill_cur s (.byte c) src) hw, hm]
          congr 1
          · have := pushBits_midbyte b c (m + 1) (by omega) (by omega)
            simpa using this.symm
          · congr 1
            exact Fin.ext (by simp [hm]; omega)
      · rw [hr]; rfl

theorem toNat_shift_or_bit {w : Nat} (x : BitVec w) (b : Bool) :
    (x <<< 1 ||| (BitVec.ofBool b).setWidth w).toNat = (2 * x.toNat + b.toNat) % 2 ^ w := by
  rw [← BitVec.add_eq_or_of_and_eq_zero]
  · simp only [BitVec.toNat_add, BitVec.toNat_shiftLeft, BitVec.toNat_setWidth, BitVec.toNat_ofBool, Nat.shiftLeft_eq]
    rw [← Nat.add_mod]
    congr 1; omega
  · apply BitVec.eq_of_getLsbD_eq
    intro i hi
    rcases i with _ | i <;> simp

/-- The accumulator's number: the bits' value, shifted in below the old number, within the width (R37). -/
theorem toNat_pushBits {w : Nat} (x : BitVec w) (bs : List Bool) :
    (pushBits x bs).toNat = (x.toNat * 2 ^ bs.length + bitsValue bs) % 2 ^ w := by
  induction bs generalizing x with
  | nil => simp [pushBits, bitsValue, Nat.mod_eq_of_lt x.isLt]
  | cons b bs ih =>
    rw [pushBits, ih, toNat_shift_or_bit]
    rw [Nat.add_mod, Nat.mod_mul_mod, ← Nat.add_mod]
    congr 1
    simp only [bitsValue, List.length_cons, pow_succ]
    ring

theorem bitsValue_lt (bs : List Bool) : bitsValue bs < 2 ^ bs.length := by
  induction bs with
  | nil => simp [bitsValue]
  | cons b bs ih =>
    simp only [bitsValue, List.length_cons, pow_succ]
    cases b <;> simp <;> omega

/-- The accumulator that starts at 0 holds the number of its bits (R37, R104). -/
theorem pushBits_zero {w : Nat} (bs : List Bool) :
    pushBits (0 : BitVec w) bs = BitVec.ofNat w (bitsValue bs) := by
  apply BitVec.eq_of_toNat_eq
  simp [toNat_pushBits]

theorem setWidth_pushBits {w v : Nat} (bs : List Bool) (hw : bs.length ≤ w) (hv : bs.length ≤ v) :
    (pushBits (0 : BitVec w) bs).setWidth v = pushBits (0 : BitVec v) bs := by
  apply BitVec.eq_of_toNat_eq
  have h := bitsValue_lt bs
  have h1 : bitsValue bs < 2 ^ w := lt_of_lt_of_le h (Nat.pow_le_pow_right (by omega) hw)
  have h2 : bitsValue bs < 2 ^ v := lt_of_lt_of_le h (Nat.pow_le_pow_right (by omega) hv)
  simp [toNat_pushBits, Nat.mod_eq_of_lt h1]

/-- Shifting in a character is shifting in its eight bits (R100, R101). -/
theorem pushBits_char {w : Nat} (x : BitVec w) (bs : List Bool) (h : bs.length = 8) :
    x <<< 8 ||| (pushBits (0 : BitVec 8) bs).setWidth w = pushBits x bs := by
  apply BitVec.eq_of_getLsbD_eq
  intro i hi
  rw [getLsbD_pushBits, BitVec.getLsbD_or, BitVec.getLsbD_shiftLeft, BitVec.getLsbD_setWidth, getLsbD_pushBits, h]
  by_cases h8 : i < 8 <;> simp [hi, h8]

theorem length_takeBits {k : Nat} {s t : State} {bs : List Bool} (h : takeBits k s = .ok bs t) : bs.length = k := by
  induction k generalizing s t bs with
  | zero => simp only [takeBits_zero, Res.ok.injEq] at h; simp [← h.1]
  | succ k ih =>
    rw [takeBits_succ] at h
    cases hb : readBit s with
    | ok b u =>
      rw [hb, Res.bind_ok] at h
      cases hk : takeBits k u with
      | ok cs v =>
        rw [hk, Res.bind_ok] at h
        simp only [Res.ok.injEq] at h
        simp [← h.1, ih hk]
      | err e v => simp [hk] at h
      | stuck f => simp [hk] at h
    | err e u => simp [hb] at h
    | stuck f => simp [hb] at h

theorem readChars_eq_takeBits {w : Nat} (k : Nat) (x : BitVec w) (s : State) :
    readChars k x s = (takeBits (8 * k) s).bind fun bs t => .ok (pushBits x bs) t := by
  induction k generalizing x s with
  | zero => rfl
  | succ k ih =>
    have h : 8 * (k + 1) = 8 + 8 * k := by omega
    rw [readChars_succ, readChar_eq_takeBits, h, takeBits_add, Res.bind_assoc, Res.bind_assoc]
    cases h8 : takeBits 8 s with
    | ok bs t =>
      simp only [Res.bind_ok]
      rw [ih, pushBits_char x bs (length_takeBits h8), Res.bind_assoc]
      congr 1; funext cs u
      rw [Res.bind_ok, pushBits_append]
    | err e t => rfl
    | stuck f => rfl

end Sys2Proof.Machine
end

