-- ==== Sys2Proof/Laws/Ports.lean ====
section
/-! SUPPORT. The derived views of the port log over appended logs. -/

namespace Sys2Proof.Machine

theorem pulledBytes_append (es fs : List PortEvent) :
    pulledBytes (es ++ fs) = pulledBytes es ++ pulledBytes fs := by
  induction es with
  | nil => rfl
  | cons e es ih => rcases e with _ | (_ | _) | _ <;> simp [pulledBytes, ih]

theorem eosAnswers_append (es fs : List PortEvent) :
    eosAnswers (es ++ fs) = eosAnswers es + eosAnswers fs := by
  induction es with
  | nil => simp [eosAnswers]
  | cons e es ih => rcases e with _ | (_ | _) | _ <;> simp [eosAnswers, ih, Nat.add_right_comm]

theorem beats_append (es fs : List PortEvent) : beats (es ++ fs) = beats es ++ beats fs := by
  induction es with
  | nil => rfl
  | cons e es ih => rcases e with _ | _ | _ <;> simp [beats, ih]

theorem transfers_append (es fs : List PortEvent) : transfers (es ++ fs) = transfers es + transfers fs := by
  simp [transfers, pulledBytes_append, eosAnswers_append]; omega

theorem lastAnswer_append_pull (es : List PortEvent) (a : ByteOrEos) :
    lastAnswer (es ++ [.pull a]) = some a := by
  induction es with
  | nil => rfl
  | cons e es ih => rcases e with _ | _ | _ <;> simp [lastAnswer, ih]

theorem lastAnswer_append_cmd (es : List PortEvent) (w : CmdWord) :
    lastAnswer (es ++ [.cmd w]) = lastAnswer es := by
  induction es with
  | nil => rfl
  | cons e es ih => rcases e with _ | _ | _ <;> simp [lastAnswer, ih]

theorem lastAnswer_append_beat (es : List PortEvent) (b : Beat) :
    lastAnswer (es ++ [.beat b]) = lastAnswer es := by
  induction es with
  | nil => rfl
  | cons e es ih => rcases e with _ | _ | _ <;> simp [lastAnswer, ih]

/-- One appended pull, by its answer. -/
theorem transfers_append_pull (es : List PortEvent) (a : ByteOrEos) :
    transfers (es ++ [.pull a]) = transfers es + 1 := by
  rw [transfers_append]; cases a <;> rfl

theorem transfers_append_beat (es : List PortEvent) (b : Beat) :
    transfers (es ++ [.beat b]) = transfers es := by
  rw [transfers_append]; rfl

theorem transfers_append_cmd (es : List PortEvent) (w : CmdWord) :
    transfers (es ++ [.cmd w]) = transfers es := by
  rw [transfers_append]; rfl

end Sys2Proof.Machine
end

