-- ==== Sys2Proof/Laws/Frame.lean ====
section
/-! SUPPORT. The three things an operation of a command can do to the state (set the count, take a pull, send a data
beat), packaged as one induction: what these three keep, every instruction keeps. Then the frame of a command and the
growth of its port log. -/

namespace Sys2Proof.Machine

/-- Where an operation ends, `Q` holds: of the state it returns or raises in, or of some state with the log of its hang. -/
def Res.Within {α : Type} (Q : State → Prop) : Res α → Prop
  | .ok _ t => Q t
  | .err _ t => Q t
  | .stuck (.sourceSilent p) => ∃ t, Q t ∧ t.ports = p
  | .stuck .stringEndless => True
  | .stuck .brokenCursor => True

/-- A relation that the elementary actions of a command keep. -/
structure CommandRel (R : State → State → Prop) : Prop where
  refl : ∀ s, R s s
  trans : ∀ {s t u}, R s t → R t u → R s u
  setN : ∀ s m, R s (s.setN m)
  fill : ∀ {s a src} {b : Byte}, s.cur = .byte b → s.src.next = some (a, src) → R s (s.fill a src)
  charBeat : ∀ s c, R s (s.log (.beat (charBeat c)))

section
variable {R : State → State → Prop} (h : CommandRel R)
include h

theorem CommandRel.of_rel {α : Type} {s t : State} (hr : R s t) {r : Res α} (g : r.Within (R t)) : r.Within (R s) := by
  match r, g with
  | .ok _ _, g => exact h.trans hr g
  | .err _ _, g => exact h.trans hr g
  | .stuck (.sourceSilent _), ⟨u, hu, e⟩ => exact ⟨u, h.trans hr hu, e⟩
  | .stuck .stringEndless, _ => trivial
  | .stuck .brokenCursor, _ => trivial

theorem CommandRel.bind {α β : Type} {s : State} {r : Res α} {f : α → State → Res β} (hr : r.Within (R s))
    (g : ∀ v t, (f v t).Within (R t)) : (r.bind f).Within (R s) := by
  match r, hr with
  | .ok v t, hr => exact h.of_rel hr (g v t)
  | .err _ _, hr => exact hr
  | .stuck (.sourceSilent _), hr => exact hr
  | .stuck .stringEndless, _ => trivial
  | .stuck .brokenCursor, _ => trivial

theorem CommandRel.zext {w : Nat} {s : State} {r : Res (BitVec w)} (hr : r.Within (R s)) : r.zext.Within (R s) :=
  h.bind hr fun _ t => h.refl t

theorem CommandRel.readBit (s : State) : (readBit s).Within (R s) := by
  rcases readBit_cases s with ⟨-, e⟩ | ⟨b, -, -, e⟩ | ⟨b, -, -, -, e⟩ | ⟨b, -, -, -, e⟩ | ⟨b, a, src, hc, -, hn, e⟩ <;>
    rw [e]
  · exact h.refl s
  · trivial
  · exact h.setN s _
  · exact ⟨s, h.refl s, rfl⟩
  · exact h.fill hc hn

theorem CommandRel.takeBits (k : Nat) (s : State) : (takeBits k s).Within (R s) := by
  induction k generalizing s with
  | zero => exact h.refl s
  | succ k ih => exact h.bind (h.readBit s) fun _ t => h.bind (ih t) fun _ u => h.refl u

theorem CommandRel.readChar (s : State) : (readChar s).Within (R s) := by
  rw [readChar_eq_takeBits]
  exact h.bind (h.takeBits 8 s) fun _ t => h.refl t

theorem CommandRel.readBits {w : Nat} (k : Nat) (x : BitVec w) (s : State) : (readBits k x s).Within (R s) := by
  rw [readBits_eq_takeBits]
  exact h.bind (h.takeBits k s) fun _ t => h.refl t

theorem CommandRel.readChars {w : Nat} (k : Nat) (x : BitVec w) (s : State) : (readChars k x s).Within (R s) := by
  rw [readChars_eq_takeBits]
  exact h.bind (h.takeBits _ s) fun _ t => h.refl t

theorem CommandRel.readStringLoop (fuel : Nat) (s : State) : (readStringLoop fuel s).Within (R s) := by
  induction fuel generalizing s with
  | zero => trivial
  | succ fuel ih =>
    rw [Machine.readStringLoop]
    split
    · exact h.refl s
    · exact h.bind (h.readChar s) fun c t => h.of_rel (h.charBeat t c) (ih _)

theorem CommandRel.readString (s : State) : (readString s).Within (R s) := by
  rw [Machine.readString]
  split
  · exact h.refl s
  · exact h.readStringLoop _ s

theorem CommandRel.readCharW (r : Nat) (s : State) : (readCharW r s).Within (R s) := by
  rw [Machine.readCharW]
  split
  · split
    · exact h.bind (h.readChar s) fun _ t => h.refl t
    · exact h.readBits r 0 s
  · exact h.refl s

theorem CommandRel.readIntW (r : Nat) (s : State) : (readIntW r s).Within (R s) := by
  rw [Machine.readIntW]
  split
  · exact h.readBits r 0 s
  · exact h.refl s
end

/-- What each instruction does before it responds: `exec` is `respond` of it. -/
def operation : Instr → State → Res Data
  | .existsQ, s => .ok (zextBool s.bound) s
  | .isEmpty, s => .ok (zextBool s.isEmpty) s
  | .rdBit, s => (readBit s).bind fun b s => .ok (zextBool b) s
  | .rdChar, s => (readChar s).zext
  | .rdCharW r, s => (readCharW r s).zext
  | .rdShort, s => (readChars 2 (0 : BitVec 16) s).zext
  | .rdInt, s => readChars 4 (0 : BitVec 32) s
  | .rdIntW r, s => readIntW r s
  | .rdStr, s => (readString s).bind fun _ s => .ok 0 s

theorem exec_eq_respond (i : Instr) (s : State) : exec i s = respond (operation i s) := by
  cases i <;> rfl

/-- Every instruction's operation stays within any relation its elementary actions keep. -/
theorem CommandRel.operation {R : State → State → Prop} (h : CommandRel R) (i : Instr) (s : State) :
    (operation i s).Within (R s) := by
  cases i with
  | existsQ => exact h.refl s
  | isEmpty => exact h.refl s
  | rdBit => exact h.bind (h.readBit s) fun _ t => h.refl t
  | rdChar => exact h.zext (h.readChar s)
  | rdCharW r => exact h.zext (h.readCharW r s)
  | rdShort => exact h.zext (h.readChars 2 _ s)
  | rdInt => exact h.readChars 4 _ s
  | rdIntW r => exact h.readIntW r s
  | rdStr => exact h.bind (h.readString s) fun _ t => h.refl t

/-- Every way a command can answer: its operation ran, within any such relation, and one final beat ends the response. -/
theorem CommandRel.exec {R : State → State → Prop} (h : CommandRel R) {i : Instr} {s t : State}
    (e : exec i s = .next t) :
    (∃ d u, Machine.operation i s = .ok d u ∧ R s u ∧ t = u.log (.beat (okBeat d))) ∨
    (∃ k u, Machine.operation i s = .err k u ∧ R s u ∧ t = u.log (.beat (errBeat k))) := by
  have g := h.operation i s
  rw [exec_eq_respond] at e
  cases ho : Machine.operation i s with
  | ok d u =>
    rw [ho] at e g
    exact .inl ⟨d, u, rfl, g, by simpa [respond] using e.symm⟩
  | err k u =>
    rw [ho] at e g
    exact .inr ⟨k, u, rfl, g, by simpa [respond, takeError] using e.symm⟩
  | stuck f =>
    rw [ho] at e
    simp [respond] at e

/-- What can cross the ports inside a command: a pull, or a data beat of RDSTR (R61, R113). -/
def PortEvent.inside : PortEvent → Prop
  | .pull _ => True
  | .beat b => b.last = false ∧ b.status = .ok
  | .cmd _ => False

/-- `t` is reached from `s` inside a command. -/
structure Follows (s t : State) : Prop where
  priming : t.priming = s.priming
  bound : t.bound = s.bound
  inputs : t.inputs = s.inputs
  past : t.past = s.past
  ports : ∃ es, t.ports = s.ports ++ es ∧ ∀ e ∈ es, e.inside

theorem follows_commandRel : CommandRel Follows where
  refl s := ⟨rfl, rfl, rfl, rfl, [], by simp, by simp⟩
  trans := by
    intro s t u h g
    obtain ⟨es, he, hi⟩ := h.ports
    obtain ⟨fs, hf, hj⟩ := g.ports
    refine ⟨g.priming.trans h.priming, g.bound.trans h.bound, g.inputs.trans h.inputs, g.past.trans h.past,
      es ++ fs, by rw [hf, he, List.append_assoc], fun e m => ?_⟩
    rcases List.mem_append.1 m with m | m
    · exact hi e m
    · exact hj e m
  setN s m := ⟨rfl, rfl, rfl, rfl, [], by simp, by simp⟩
  fill := by
    intro s a src b _ _
    exact ⟨by simp, by simp, by simp, by simp, [.pull a], by simp, by simp [PortEvent.inside]⟩
  charBeat s c := ⟨rfl, rfl, rfl, rfl, [.beat (charBeat c)], by simp, by simp [PortEvent.inside, charBeat]⟩

/-- R30, R41 item 3: the bytes pulled and the bytes left are one sequence, on a source that is not endless. -/
def InOrder (s t : State) : Prop :=
  (∀ stream index, s.src.ending ≠ .endless stream index) →
    pulledBytes t.ports ++ t.src.bytes = pulledBytes s.ports ++ s.src.bytes ∧ t.src.ending = s.src.ending

theorem inOrder_commandRel : CommandRel InOrder where
  refl s _ := ⟨rfl, rfl⟩
  trans := by
    intro s t u h g he
    obtain ⟨h1, h2⟩ := h he
    obtain ⟨g1, g2⟩ := g (by rw [h2]; exact he)
    exact ⟨g1.trans h1, g2.trans h2⟩
  setN s m _ := ⟨rfl, rfl⟩
  fill := by
    intro s a src b _ hn he
    rcases hs : s.src with ⟨_ | ⟨c, cs⟩, _ | _ | _⟩ <;> rw [hs] at hn he <;>
      simp only [Source.next, Option.some.injEq, Prod.mk.injEq, reduceCtorEq] at hn
    · obtain ⟨rfl, rfl⟩ := hn
      simp [pulledBytes_append, pulledBytes]
    · exact absurd rfl (he _ _)
    all_goals
      obtain ⟨rfl, rfl⟩ := hn
      simp [pulledBytes_append, pulledBytes]
  charBeat s c _ := by simp [pulledBytes_append, pulledBytes]

theorem freeBytes_add (stream index a b : Nat) :
    freeBytes stream index (a + b) = freeBytes stream index a ++ freeBytes stream (index + a) b := by
  induction a generalizing index with
  | zero => simp [freeBytes]
  | succ a ih =>
    rw [Nat.add_right_comm, freeBytes, freeBytes, ih, List.cons_append]
    congr 3; omega

@[simp] theorem length_freeBytes (stream index count : Nat) : (freeBytes stream index count).length = count := by
  induction count generalizing index with
  | zero => rfl
  | succ count ih => simp [freeBytes, ih]

/-- R30, R41 item 3 on an endless source: the listed bytes and then the free ones are pulled in order, and the source
stays endless. -/
def FreeInOrder (s t : State) : Prop :=
  (s.src.bytes = [] → t.src.bytes = []) ∧
  ∀ stream index, s.src.ending = .endless stream index → ∃ count,
    pulledBytes t.ports ++ t.src.bytes = pulledBytes s.ports ++ s.src.bytes ++ freeBytes stream index count ∧
    t.src.ending = .endless stream (index + count) ∧ (count = 0 ∨ t.src.bytes = [])

theorem freeInOrder_commandRel : CommandRel FreeInOrder where
  refl s := ⟨id, fun stream index he => ⟨0, by simp [freeBytes], he, .inl rfl⟩⟩
  trans := by
    intro s t u h g
    refine ⟨g.1 ∘ h.1, fun stream index he => ?_⟩
    obtain ⟨a, h1, h2, h3⟩ := h.2 stream index he
    obtain ⟨b, g1, g2, g3⟩ := g.2 stream _ h2
    refine ⟨a + b, by rw [g1, h1, freeBytes_add]; simp, by rw [g2, Nat.add_assoc], ?_⟩
    rcases g3 with rfl | g3
    · exact h3.imp (by simp) g.1
    · exact .inr g3
  setN s m := ⟨id, fun stream index he => ⟨0, by simp [freeBytes], he, .inl rfl⟩⟩
  fill := by
    intro s a src b _ hn
    rcases hs : s.src with ⟨_ | ⟨c, cs⟩, en⟩ <;> rw [hs] at hn
    · refine ⟨fun _ => ?_, fun stream index he => ?_⟩
      · cases en <;> simp only [Source.next, Option.some.injEq, Prod.mk.injEq, reduceCtorEq] at hn <;>
          obtain ⟨-, rfl⟩ := hn <;> simp
      · rw [hs] at he
        simp only at he
        subst he
        simp only [Source.next, Option.some.injEq, Prod.mk.injEq] at hn
        obtain ⟨rfl, rfl⟩ := hn
        exact ⟨1, by simp [pulledBytes_append, pulledBytes, freeBytes, hs], by simp, .inr (by simp)⟩
    · simp only [Source.next, Option.some.injEq, Prod.mk.injEq] at hn
      obtain ⟨rfl, rfl⟩ := hn
      refine ⟨by simp [hs], fun stream index he => ?_⟩
      rw [hs] at he
      exact ⟨0, by simp [pulledBytes_append, pulledBytes, freeBytes, hs], by simpa using he, .inl rfl⟩
  charBeat s c := ⟨id, fun stream index he =>
    ⟨0, by simp [pulledBytes_append, pulledBytes, freeBytes], he, .inl rfl⟩⟩

/-- R10, R24: the buffer and the source move only by a pull, and the buffer holds what the last pull answered. -/
structure MovesByPulls (s t : State) : Prop where
  log : ∃ es, t.ports = s.ports ++ es ∧ (transfers es = 0 → t.cur = s.cur ∧ t.src = s.src) ∧
    (transfers es ≠ 0 → lastAnswer es = some t.cur)

theorem lastAnswer_append (es fs : List PortEvent) :
    lastAnswer (es ++ fs) = (match lastAnswer fs with | some a => some a | none => lastAnswer es) := by
  induction es with
  | nil => cases h : lastAnswer fs <;> simp [h, lastAnswer]
  | cons e es ih =>
    rcases e with _ | a | _ <;> simp only [List.cons_append, lastAnswer, ih]
    cases lastAnswer fs <;> rfl

theorem lastAnswer_eq_none {es : List PortEvent} : transfers es = 0 ↔ lastAnswer es = none := by
  induction es with
  | nil => simp [transfers, pulledBytes, eosAnswers, lastAnswer]
  | cons e es ih =>
    rcases e with _ | (_ | _) | _
    · exact ih
    · simp [transfers, pulledBytes, lastAnswer]
    · simp [transfers, eosAnswers, lastAnswer]
    · exact ih

theorem movesByPulls_commandRel : CommandRel MovesByPulls where
  refl s := ⟨[], by simp, fun _ => ⟨rfl, rfl⟩, fun h => absurd rfl h⟩
  trans := by
    rintro s t u ⟨es, he, h0, h1⟩ ⟨fs, hf, g0, g1⟩
    refine ⟨es ++ fs, by rw [hf, he, List.append_assoc], fun h => ?_, fun h => ?_⟩
    · rw [transfers_append] at h
      obtain ⟨a, b⟩ := h0 (by omega)
      obtain ⟨c, d⟩ := g0 (by omega)
      exact ⟨c.trans a, d.trans b⟩
    · rw [lastAnswer_append]
      by_cases hz : transfers fs = 0
      · rw [transfers_append, hz] at h
        rw [lastAnswer_eq_none.1 hz, h1 (by omega), (g0 hz).1]
      · rw [g1 hz]
  setN s m := ⟨[], by simp, fun _ => ⟨rfl, rfl⟩, fun h => absurd rfl h⟩
  fill := by
    intro s a src b _ _
    refine ⟨[.pull a], by simp, fun h => ?_, fun _ => by simp [lastAnswer]⟩
    cases a <;> simp [transfers, pulledBytes, eosAnswers] at h
  charBeat s c := ⟨[.beat (charBeat c)], by simp, fun _ => ⟨rfl, rfl⟩, fun h => absurd rfl h⟩

end Sys2Proof.Machine
end

