-- ==== Sys2Proof/Laws/Invariant.lean ====
section
/-! SUPPORT. Every operation keeps the invariant of R18 and R47. -/

namespace Sys2Proof.Machine

/-- Where an operation returns or raises, the state satisfies `Q`. -/
def Res.All {α : Type} (Q : State → Prop) : Res α → Prop
  | .ok _ t => Q t
  | .err _ t => Q t
  | .stuck _ => True

theorem Res.All.bind {α β : Type} {Q : State → Prop} {r : Res α} {f : α → State → Res β} (h : r.All Q)
    (g : ∀ v t, Q t → (f v t).All Q) : (r.bind f).All Q := by
  cases r with
  | ok v t => exact g v t h
  | err k t => exact h
  | stuck e => trivial

/-- A byte in `cur` means a bound source and finished priming (R23). -/
theorem State.Inv.bound_of_byte {s : State} (h : s.Inv) {b : Byte} (hc : s.cur = .byte b) :
    s.bound = true ∧ s.priming = false := by
  constructor
  · cases hb : s.bound with
    | true => rfl
    | false => simp [(h.unbound hb).1] at hc
  · cases hp : s.priming with
    | false => rfl
    | true => simp [(h.priming_fresh hp).1] at hc

theorem State.Inv.eosAnswers_of_byte {s : State} (h : s.Inv) {b : Byte} (hc : s.cur = .byte b) :
    eosAnswers s.ports = 0 := by
  simp [h.eos_once, State.isEmpty, hc]

/-- An EOS answer comes from a source with nothing left, which stays so (R30). -/
theorem Source.next_eos {src src' : Source} (h : src.next = some (.eos, src')) : src' = ⟨[], .eos⟩ := by
  rcases src with ⟨_ | ⟨b, bs⟩, _ | _ | _⟩ <;> simp_all [Source.next]

theorem State.Inv.fill {s : State} (h : s.Inv) {b : Byte} (hc : s.cur = .byte b) {a : ByteOrEos} {src : Source}
    (hn : s.src.next = some (a, src)) : (s.fill a src).Inv := by
  obtain ⟨hb, hp⟩ := h.bound_of_byte hc
  have h0 := h.eosAnswers_of_byte hc
  refine ⟨?_, ?_, by simp [hp], by simp [hb], ?_, ?_, ?_⟩
  · intro c e
    simp only [State.fill_cur] at e
    subst e; simp
  · intro e
    simp only [State.fill_cur] at e
    subst e; rfl
  · intro _ _
    simp [lastAnswer_append_pull]
  · rw [State.fill_ports, eosAnswers_append, h0]
    cases a <;> simp [eosAnswers, State.isEmpty, hb, hp]
  · intro _ _ e
    simp only [State.fill_cur] at e
    subst e
    simpa using Source.next_eos hn

theorem State.Inv.setN {s : State} (h : s.Inv) {b : Byte} (hc : s.cur = .byte b) {m : Fin 9} (hm : 1 ≤ m.val) :
    (s.setN m).Inv := by
  refine ⟨fun _ _ => hm, fun e => by simp [hc] at e, h.priming_fresh, h.unbound, h.cur_is_last_answer, ?_,
    fun _ _ e => by simp [hc] at e⟩
  exact h.eos_once

theorem State.Inv.beat {s : State} (h : s.Inv) (hp : s.priming = false) (b : Beat) : (s.log (.beat b)).Inv := by
  refine ⟨h.count_of_byte, h.count_of_eos, by simp [hp], ?_, ?_, ?_, h.drained⟩
  · intro e
    have := h.unbound e
    exact ⟨this.1, by rw [State.log_ports, transfers_append_beat]; exact this.2⟩
  · intro e f
    rw [State.log_ports, lastAnswer_append_beat]
    exact h.cur_is_last_answer e f
  · rw [State.log_ports, eosAnswers_append]
    exact h.eos_once

theorem State.Inv.accept {s : State} (h : s.Inv) (hp : s.priming = false) (w : CmdWord) (rest : List Input) :
    (s.accept w rest).Inv := by
  refine ⟨h.count_of_byte, h.count_of_eos, by simp [hp], ?_, ?_, ?_, h.drained⟩
  · intro e
    have := h.unbound e
    exact ⟨this.1, by rw [State.accept_ports, transfers_append_cmd]; exact this.2⟩
  · intro e f
    rw [State.accept_ports, lastAnswer_append_cmd]
    exact h.cur_is_last_answer e f
  · rw [State.accept_ports, eosAnswers_append]
    exact h.eos_once

/-- Reset gives a state that meets the invariant, whatever it was before (R140). -/
theorem resetBlock_inv (p : ResetPulse) (s : State) : (resetBlock p s).Inv :=
  ⟨by simp, by simp, by simp, by simp [transfers, pulledBytes, eosAnswers], by simp, by simp [eosAnswers],
    by simp⟩

theorem readBit_inv {s : State} (h : s.Inv) : (readBit s).All State.Inv := by
  rcases readBit_cases s with ⟨-, e⟩ | ⟨b, -, -, e⟩ | ⟨b, hc, h0, h1, e⟩ | ⟨b, -, -, -, e⟩ | ⟨b, a, src, hc, -, hn, e⟩ <;>
    rw [e]
  · exact h
  · trivial
  · refine h.setN hc ?_
    revert h0 h1; generalize s.n = m; revert m; decide
  · trivial
  · exact h.fill hc hn

theorem takeBits_inv (k : Nat) {s : State} (h : s.Inv) : (takeBits k s).All State.Inv := by
  induction k generalizing s with
  | zero => exact h
  | succ k ih => exact (readBit_inv h).bind fun _ _ ht => (ih ht).bind fun _ _ hu => hu

theorem readChar_inv {s : State} (h : s.Inv) : (readChar s).All State.Inv := by
  rw [readChar_eq_takeBits]
  exact (takeBits_inv 8 h).bind fun _ _ ht => ht

theorem readBits_inv {w : Nat} (k : Nat) (x : BitVec w) {s : State} (h : s.Inv) : (readBits k x s).All State.Inv := by
  rw [readBits_eq_takeBits]
  exact (takeBits_inv k h).bind fun _ _ ht => ht

theorem readChars_inv {w : Nat} (k : Nat) (x : BitVec w) {s : State} (h : s.Inv) :
    (readChars k x s).All State.Inv := by
  rw [readChars_eq_takeBits]
  exact (takeBits_inv _ h).bind fun _ _ ht => ht

theorem readStringLoop_inv (fuel : Nat) {s : State} (h : s.Inv) (hp : s.priming = false) :
    (readStringLoop fuel s).All State.Inv := by
  induction fuel generalizing s with
  | zero => trivial
  | succ fuel ih =>
    rw [readStringLoop]
    split
    · exact h
    · have hi := readChar_inv h
      have hf := follows_commandRel.readChar s
      cases hr : readChar s with
      | ok c t =>
        rw [hr] at hi hf
        have htp : t.priming = false := hf.priming.trans hp
        exact ih (hi.beat htp _) htp
      | err k t => rw [hr] at hi; exact hi
      | stuck f => trivial

theorem readString_inv {s : State} (h : s.Inv) : (readString s).All State.Inv := by
  rw [readString]
  split
  · exact h
  · rename_i he
    refine readStringLoop_inv _ h ?_
    cases hc : s.cur with
    | eos => exact absurd ((State.isEmpty_iff s).2 hc) he
    | byte b => exact (h.bound_of_byte hc).2

theorem operation_inv (i : Instr) {s : State} (h : s.Inv) : (operation i s).All State.Inv := by
  cases i with
  | existsQ => exact h
  | isEmpty => exact h
  | rdBit => exact (readBit_inv h).bind fun _ _ ht => ht
  | rdChar => exact (readChar_inv h).bind fun _ _ ht => ht
  | rdCharW r =>
    refine Res.All.bind ?_ fun _ _ ht => ht
    rw [readCharW]
    split
    · split
      · exact (readChar_inv h).bind fun _ _ ht => ht
      · exact readBits_inv r 0 h
    · exact h
  | rdShort => exact (readChars_inv 2 _ h).bind fun _ _ ht => ht
  | rdInt => exact readChars_inv 4 _ h
  | rdIntW r =>
    rw [operation, readIntW]
    split
    · exact readBits_inv r 0 h
    · exact h
  | rdStr => exact (readString_inv h).bind fun _ _ ht => ht

end Sys2Proof.Machine
end

