-- ==== Sys2Proof/Laws/Stream.lean ====
section
/-! SUPPORT. The remaining bit stream `R` (R8) on a source that ends: one bit is its head, `k` bits are its first `k`, and
asking for more than it holds raises with nothing left (R45). -/

namespace Sys2Proof.Machine

theorem Source.next_of_finite {src : Source} (h : src.finite = true) :
    (∃ b bs, src.bytes = b :: bs ∧ src.next = some (.byte b, ⟨bs, src.ending⟩)) ∨
    (src.bytes = [] ∧ src.next = some (.eos, src)) := by
  rcases src with ⟨_ | ⟨b, bs⟩, _ | _ | _⟩ <;> simp_all [Source.finite, Source.next]

theorem lowBits_length (k : Nat) (b : Byte) : (lowBits k b).length = k := by
  induction k with
  | zero => rfl
  | succ k ih => simp [lowBits, ih]

theorem bytesBits_length (bs : List Byte) : (bytesBits bs).length = 8 * bs.length := by
  induction bs with
  | nil => rfl
  | cons b bs ih => simp [bytesBits, lowBits_length, ih]; omega

theorem State.remaining_of_eos {s : State} (h : s.cur = .eos) : s.remaining = [] := by simp [State.remaining, h]

theorem State.remaining_of_byte {s : State} {b : Byte} (h : s.cur = .byte b) :
    s.remaining = lowBits s.n.val b ++ bytesBits s.src.bytes := by simp [State.remaining, h]

/-- `|R| = n + 8 * (bytes still in the source)` (R8). -/
theorem State.remaining_length {s : State} {b : Byte} (h : s.cur = .byte b) :
    s.remaining.length = s.n.val + 8 * s.src.bytes.length := by
  simp [State.remaining_of_byte h, lowBits_length, bytesBits_length]

theorem State.Inv.remaining_eq_nil {s : State} (h : s.Inv) : s.remaining = [] ↔ s.cur = .eos := by
  constructor
  · intro e
    cases hc : s.cur with
    | eos => rfl
    | byte b =>
      have := h.count_of_byte b hc
      have hl := State.remaining_length hc
      rw [e] at hl
      simp at hl
      omega
  · exact State.remaining_of_eos

/-- Where the sources answers to a refill leave the stream. -/
theorem fill_remaining_of_finite {s : State} (hf : s.src.finite = true) :
    ∃ a src, s.src.next = some (a, src) ∧ src.finite = true ∧
      (s.fill a src).remaining = bytesBits s.src.bytes := by
  rcases Source.next_of_finite hf with ⟨b, bs, hb, hn⟩ | ⟨hb, hn⟩
  · exact ⟨_, _, hn, hf, by simp [State.remaining, hb, bytesBits]⟩
  · exact ⟨_, _, hn, hf, by simp [State.remaining, hb, bytesBits]⟩

/-- R80 on a source that ends: a bit is the head of `R`. -/
theorem readBit_of_remaining {s : State} (h : s.Inv) (hf : s.src.finite = true) {b : Bool} {R : List Bool}
    (hR : s.remaining = b :: R) :
    ∃ t, readBit s = .ok b t ∧ t.remaining = R ∧ t.src.finite = true ∧ t.Inv := by
  have hi := readBit_inv h
  cases hc : s.cur with
  | eos => simp [State.remaining_of_eos hc] at hR
  | byte c =>
    have h1 := h.count_of_byte c hc
    have h0 : s.n ≠ 0 := fun e => by simp [e] at h1
    obtain ⟨m, hm⟩ : ∃ m, s.n.val = m + 1 := ⟨s.n.val - 1, by omega⟩
    rw [State.remaining_of_byte hc, hm, lowBits, List.cons_append, List.cons.injEq] at hR
    by_cases he : s.n = 1
    · obtain ⟨a, src, hn, hs, hr⟩ := fill_remaining_of_finite hf
      have hm0 : m = 0 := by rw [he] at hm; simpa using hm.symm
      have e : readBit s = .ok (c.getLsbD 0) (s.fill a src) := by
        rw [readBit_of_last hc he, refill_setN, refill_of_next hn]; rfl
      subst hm0
      rw [e] at hi
      refine ⟨_, by rw [e, hR.1], ?_, by simpa using hs, hi⟩
      rw [hr, ← hR.2]; rfl
    · have e := readBit_of_more hc h0 he
      rw [e] at hi
      have hv : (s.n - 1).val = s.n.val - 1 := by
        revert h0; generalize s.n = j; revert j; decide
      refine ⟨_, by rw [e, ← hR.1, hm]; rfl, ?_, by simpa using hf, hi⟩
      rw [State.remaining_of_byte (by simpa using hc), ← hR.2]
      simp [hv, hm]

/-- R45, enough bits: the first `k` bits of `R`. -/
theorem takeBits_of_le (k : Nat) {s : State} (h : s.Inv) (hf : s.src.finite = true) (hk : k ≤ s.remaining.length) :
    ∃ t, takeBits k s = .ok (s.remaining.take k) t ∧ t.remaining = s.remaining.drop k ∧ t.src.finite = true ∧ t.Inv := by
  induction k generalizing s with
  | zero => exact ⟨s, rfl, rfl, hf, h⟩
  | succ k ih =>
    obtain ⟨b, R, hR⟩ : ∃ b R, s.remaining = b :: R := by
      cases hR : s.remaining with
      | nil => simp [hR] at hk
      | cons b R => exact ⟨b, R, rfl⟩
    obtain ⟨t, e, ht, hft, hit⟩ := readBit_of_remaining h hf hR
    obtain ⟨u, e', hu, hfu, hiu⟩ := ih hit hft (by rw [ht]; simpa [hR] using hk)
    refine ⟨u, ?_, by rw [hu, ht, hR]; rfl, hfu, hiu⟩
    rw [takeBits_succ, e, Res.bind_ok, e', Res.bind_ok, ht, hR]; rfl

/-- R45, too few bits: the error, and nothing is left. -/
theorem takeBits_of_gt (k : Nat) {s : State} (h : s.Inv) (hf : s.src.finite = true) (hk : s.remaining.length < k) :
    ∃ t, takeBits k s = .err .endOfStream t ∧ t.cur = .eos ∧ t.src.finite = true ∧ t.Inv ∧
      (s.cur = .eos → t = s) := by
  induction k generalizing s with
  | zero => omega
  | succ k ih =>
    cases hR : s.remaining with
    | nil =>
      have hc := h.remaining_eq_nil.1 hR
      exact ⟨s, takeBits_of_eos hc k, hc, hf, h, fun _ => rfl⟩
    | cons b R =>
      obtain ⟨t, e, ht, hft, hit⟩ := readBit_of_remaining h hf hR
      obtain ⟨u, e', hu, hfu, hiu, -⟩ := ih hit hft (by rw [ht]; simp [hR] at hk; omega)
      refine ⟨u, by rw [takeBits_succ, e, Res.bind_ok, e']; rfl, hu, hfu, hiu, fun hc => ?_⟩
      simp [State.remaining_of_eos hc] at hR

/-- `readBits` on a source that ends, both ways. -/
theorem readBits_of_le {w : Nat} (k : Nat) {s : State} (h : s.Inv) (hf : s.src.finite = true)
    (hk : k ≤ s.remaining.length) :
    ∃ t, readBits k (0 : BitVec w) s = .ok (BitVec.ofNat w (bitsValue (s.remaining.take k))) t ∧
      t.remaining = s.remaining.drop k ∧ t.src.finite = true ∧ t.Inv := by
  obtain ⟨t, e, ht, hft, hit⟩ := takeBits_of_le k h hf hk
  exact ⟨t, by rw [readBits_eq_takeBits, e, Res.bind_ok, pushBits_zero], ht, hft, hit⟩

end Sys2Proof.Machine
end

