-- ==== Sys2Proof/Laws/Reads.lean ====
section
/-! SUPPORT. Every fixed-width instruction is one response to a run of single bits (R45, R103), from every state and on
every source; what its value, its final beat and its port log are. -/

namespace Sys2Proof.Machine

theorem charWidthOk_iff (r : Nat) : charWidthOk r = true ↔ 1 ≤ r ∧ r ≤ 16 := by
  rw [charWidthOk, Bool.and_eq_true, decide_eq_true_iff, decide_eq_true_iff]; rfl

theorem intWidthOk_iff (r : Nat) : intWidthOk r = true ↔ 1 ≤ r ∧ r ≤ 32 := by
  rw [intWidthOk, Bool.and_eq_true, decide_eq_true_iff, decide_eq_true_iff]; rfl

theorem fieldWidth_rdCharW {r : Nat} (h1 : 1 ≤ r) (h2 : r ≤ 16) : fieldWidth (.rdCharW r) = some r :=
  if_pos ((charWidthOk_iff r).2 ⟨h1, h2⟩)

theorem fieldWidth_rdIntW {r : Nat} (h1 : 1 ≤ r) (h2 : r ≤ 32) : fieldWidth (.rdIntW r) = some r :=
  if_pos ((intWidthOk_iff r).2 ⟨h1, h2⟩)

/-- A field has 1 to 32 bits. -/
theorem fieldWidth_range {i : Instr} {k : Nat} (h : fieldWidth i = some k) : 1 ≤ k ∧ k ≤ 32 := by
  cases i with
  | rdCharW r =>
    simp only [fieldWidth, charWidthOk_iff, Option.ite_none_right_eq_some, Option.some.injEq] at h
    omega
  | rdIntW r =>
    simp only [fieldWidth, intWidthOk_iff, Option.ite_none_right_eq_some, Option.some.injEq] at h
    omega
  | existsQ => simp [fieldWidth] at h
  | isEmpty => simp [fieldWidth] at h
  | rdStr => simp [fieldWidth] at h
  | rdBit => simp only [fieldWidth, Option.some.injEq] at h; omega
  | rdChar => simp only [fieldWidth, Option.some.injEq] at h; omega
  | rdShort => simp only [fieldWidth, Option.some.injEq] at h; omega
  | rdInt => simp only [fieldWidth, Option.some.injEq] at h; omega

/-- The `k` bits on a `w`-bit accumulator, extended to the data field, are the bits on 32. -/
theorem zext_takeBits {w k : Nat} (hw : k ≤ w) (h32 : k ≤ 32) (s : State) :
    ((takeBits k s).bind fun bs t => Res.ok (pushBits (0 : BitVec w) bs) t).zext =
      (takeBits k s).bind fun bs t => .ok (pushBits (0 : BitVec 32) bs) t := by
  cases hk : takeBits k s with
  | ok bs t =>
    have hl := length_takeBits hk
    simp only [Res.bind_ok, Res.zext]
    rw [setWidth_pushBits bs (by omega) (by omega)]
  | err e t => rfl
  | stuck f => rfl

/-- `ReadCharW(r)` is `r` bits on both of its paths (R93). -/
theorem readCharW_eq_takeBits {r : Nat} (h1 : 1 ≤ r) (h2 : r ≤ 16) (s : State) :
    readCharW r s = (takeBits r s).bind fun bs t => .ok (pushBits (0 : BitVec 16) bs) t := by
  rw [readCharW, if_pos ((charWidthOk_iff r).2 ⟨h1, h2⟩)]
  split
  · rename_i h8
    subst h8
    rw [readChar_eq_takeBits, Res.bind_assoc]
    cases hk : takeBits 8 s with
    | ok bs t =>
      simp only [Res.bind_ok]
      rw [setWidth_pushBits bs (by rw [length_takeBits hk]) (by rw [length_takeBits hk]; omega)]
    | err e t => rfl
    | stuck f => rfl
  · rw [readBits_eq_takeBits]

theorem operation_eq_takeBits {i : Instr} {k : Nat} (h : fieldWidth i = some k) (s : State) :
    operation i s = (takeBits k s).bind fun bs t => .ok (pushBits (0 : BitVec 32) bs) t := by
  have hr := fieldWidth_range h
  cases i with
  | existsQ => simp [fieldWidth] at h
  | isEmpty => simp [fieldWidth] at h
  | rdStr => simp [fieldWidth] at h
  | rdBit =>
    simp only [fieldWidth, Option.some.injEq] at h
    subst h
    rw [operation, takeBits_succ, Res.bind_assoc]
    congr 1; funext b t
    simp [pushBits, zextBool]
  | rdChar =>
    simp only [fieldWidth, Option.some.injEq] at h
    subst h
    rw [operation, readChar_eq_takeBits, zext_takeBits (by omega) (by omega)]
  | rdCharW r =>
    simp only [fieldWidth, charWidthOk_iff, Option.ite_none_right_eq_some, Option.some.injEq] at h
    obtain ⟨⟨h1, h2⟩, rfl⟩ := h
    rw [operation, readCharW_eq_takeBits h1 h2, zext_takeBits h2 (by omega)]
  | rdShort =>
    simp only [fieldWidth, Option.some.injEq] at h
    subst h
    rw [operation, readChars_eq_takeBits]
    exact zext_takeBits (by omega) (by omega) s
  | rdInt =>
    simp only [fieldWidth, Option.some.injEq] at h
    subst h
    rw [operation, readChars_eq_takeBits]
  | rdIntW r =>
    simp only [fieldWidth, intWidthOk_iff, Option.ite_none_right_eq_some, Option.some.injEq] at h
    obtain ⟨⟨h1, h2⟩, rfl⟩ := h
    rw [operation, readIntW, if_pos ((intWidthOk_iff r).2 ⟨h1, h2⟩), readBits_eq_takeBits]

/-- Every fixed-width instruction, by the width of its field. -/
theorem exec_eq_takeBits {i : Instr} {k : Nat} (h : fieldWidth i = some k) (s : State) :
    exec i s = respond ((takeBits k s).bind fun bs t => .ok (pushBits (0 : BitVec 32) bs) t) := by
  rw [exec_eq_respond, operation_eq_takeBits h]

@[simp] theorem finalBeat_log (t : State) (b : Beat) : (t.log (.beat b)).finalBeat = some b := by
  simp [State.finalBeat]

/-- The answer of a field that was read, and of one that was not. -/
theorem exec_of_takeBits_ok {i : Instr} {k : Nat} (h : fieldWidth i = some k) {s t : State} {bs : List Bool}
    (e : takeBits k s = .ok bs t) :
    exec i s = .next (t.log (.beat (okBeat (pushBits (0 : BitVec 32) bs)))) := by
  rw [exec_eq_takeBits h, e]; rfl

theorem exec_of_takeBits_err {i : Instr} {k : Nat} (h : fieldWidth i = some k) {s t : State} {c : ErrKind}
    (e : takeBits k s = .err c t) : exec i s = .next (t.log (.beat (errBeat c))) := by
  rw [exec_eq_takeBits h, e]; rfl

theorem exec_of_takeBits_stuck {i : Instr} {k : Nat} (h : fieldWidth i = some k) {s : State} {f : Fault}
    (e : takeBits k s = .stuck f) : exec i s = .fault f := by
  rw [exec_eq_takeBits h, e]; rfl

/-- A read raises nothing but the end of the stream (R120). -/
theorem takeBits_err_kind {k : Nat} {s t : State} {c : ErrKind} (h : takeBits k s = .err c t) : c = .endOfStream := by
  induction k generalizing s with
  | zero => simp at h
  | succ k ih =>
    rw [takeBits_succ] at h
    rcases readBit_cases s with ⟨-, e⟩ | ⟨b, -, -, e⟩ | ⟨b, -, -, -, e⟩ | ⟨b, -, -, -, e⟩ | ⟨b, a, src, -, -, -, e⟩ <;>
      rw [e] at h
    · simp only [Res.bind_err, Res.err.injEq] at h
      exact h.1.symm
    · simp at h
    · rw [Res.bind_ok] at h
      cases hk : takeBits k (s.setN (s.n - 1)) with
      | ok bs u => simp [hk] at h
      | err c' u => rw [hk, Res.bind_err, Res.err.injEq] at h; obtain ⟨rfl, rfl⟩ := h; exact ih hk
      | stuck f => simp [hk] at h
    · simp at h
    · rw [Res.bind_ok] at h
      cases hk : takeBits k (s.fill a src) with
      | ok bs u => simp [hk] at h
      | err c' u => rw [hk, Res.bind_err, Res.err.injEq] at h; obtain ⟨rfl, rfl⟩ := h; exact ih hk
      | stuck f => simp [hk] at h

/-- `s` with another port log. -/
def State.withPorts (s : State) (es : List PortEvent) : State := { s with ports := es }

end Sys2Proof.Machine
end

