-- ==== Sys2Proof/Laws/Strings.lean ====
section
/-! SUPPORT. RDSTR's loop, by what the source does after its bytes and where in a byte the cursor stands (R110 to R114). -/

namespace Sys2Proof.Machine

/-- The loop's port transactions from a byte-aligned cursor: those of `stringEvents` without the final beat. -/
def loopEvents : Byte → List Byte → List PortEvent
  | c, [] => [.pull .eos, .beat (charBeat c)]
  | c, b :: bs => .pull (.byte b) :: .beat (charBeat c) :: loopEvents b bs

theorem stringEvents_eq (c : Byte) (bs : List Byte) : stringEvents c bs = loopEvents c bs ++ [.beat (okBeat 0)] := by
  induction bs generalizing c with
  | nil => rfl
  | cons b bs ih => simp [stringEvents, loopEvents, ih]

theorem beats_loopEvents (c : Byte) (bs : List Byte) : beats (loopEvents c bs) = (c :: bs).map charBeat := by
  induction bs generalizing c with
  | nil => rfl
  | cons b bs ih => simp [loopEvents, beats, ih]

theorem transfers_loopEvents (c : Byte) (bs : List Byte) : transfers (loopEvents c bs) = bs.length + 1 := by
  induction bs generalizing c with
  | nil => rfl
  | cons b bs ih =>
    have := ih b
    simp only [loopEvents, transfers, pulledBytes, eosAnswers, List.length_cons] at this ⊢
    omega

theorem readStringLoop_of_eos {s : State} (h : s.cur = .eos) (fuel : Nat) : readStringLoop (fuel + 1) s = .ok () s := by
  rw [readStringLoop, if_pos ((State.isEmpty_iff s).2 h)]

theorem readStringLoop_of_byte {s : State} {b : Byte} (h : s.cur = .byte b) (fuel : Nat) :
    readStringLoop (fuel + 1) s =
      (readChar s).bind fun c t => readStringLoop fuel (t.log (.beat (charBeat c))) := by
  rw [readStringLoop, if_neg (by simp [State.isEmpty, h])]

theorem readString_of_byte {s : State} {b : Byte} (h : s.cur = .byte b) :
    readString s = readStringLoop (s.src.bytes.length + 2) s := by
  rw [readString, if_neg (by simp [State.isEmpty, h])]

/-- R112, byte-aligned on a source that ends: every byte, then Exhausted. -/
theorem readStringLoop_of_aligned (bs : List Byte) {s : State} {c : Byte} (hc : s.cur = .byte c) (h8 : s.n = 8)
    (hs : s.src = ⟨bs, .eos⟩) {fuel : Nat} (hf : bs.length + 2 ≤ fuel) :
    readStringLoop fuel s = .ok () { s with cur := .eos, n := 0, src := ⟨[], .eos⟩,
                                            ports := s.ports ++ loopEvents c bs } := by
  induction bs generalizing s c fuel with
  | nil =>
    obtain ⟨fuel, rfl⟩ : ∃ f, fuel = f + 2 := ⟨fuel - 2, by simp at hf; omega⟩
    have hn : s.src.next = some (.eos, ⟨[], .eos⟩) := by rw [hs]; rfl
    rw [readStringLoop_of_byte hc, readChar_of_aligned hc h8, refill_of_next hn, Res.bind_ok, Res.bind_ok,
      readStringLoop_of_eos (by simp)]
    simp [State.log, State.fill, State.load, loopEvents]
  | cons b bs ih =>
    obtain ⟨fuel, rfl⟩ : ∃ f, fuel = f + 1 := ⟨fuel - 1, by simp at hf; omega⟩
    have hn : s.src.next = some (.byte b, ⟨bs, .eos⟩) := by rw [hs]; rfl
    rw [readStringLoop_of_byte hc, readChar_of_aligned hc h8, refill_of_next hn, Res.bind_ok, Res.bind_ok,
      ih (c := b) (by simp) (by simp) (by simp) (by simp at hf; omega)]
    simp [State.log, State.fill, State.load, loopEvents]

/-- The character across a byte boundary is the buffered byte itself when all its bits are unread. -/
@[simp] theorem spliced_eight (b c : Byte) : spliced 8 b c = b := by
  revert b c
  simp [spliced, BitVec.ushiftRight_eq_zero]

/-- On a source with a next byte, a character is read from any cursor with a bit left, and a bit is left after it. -/
theorem readChar_of_next_byte {s : State} {b c : Byte} {src : Source} (hc : s.cur = .byte b) (h0 : s.n ≠ 0)
    (hn : s.src.next = some (.byte c, src)) :
    readChar s = .ok (spliced s.n.val b c) ((s.fill (.byte c) src).setN s.n) := by
  by_cases h8 : s.n = 8
  · rw [readChar_of_aligned hc h8, refill_of_next hn, h8]
    exact congrArg (fun x => Res.ok x _) (spliced_eight b c).symm
  · rw [readChar_of_midbyte hc h0 h8, refill_of_next hn]; rfl

theorem beats_stringPulls_length (n : Nat) (c : Byte) (bs : List Byte) :
    (beats (stringPulls n c bs)).length = bs.length := by
  induction bs generalizing c with
  | nil => rfl
  | cons b bs ih => simp [stringPulls, beats, ih]

theorem mem_beats_stringPulls {n : Nat} {c : Byte} {bs : List Byte} {d : Beat} (h : d ∈ beats (stringPulls n c bs)) :
    d.last = false ∧ d.status = .ok := by
  induction bs generalizing c with
  | nil => simp [stringPulls, beats] at h
  | cons b bs ih =>
    simp only [stringPulls, beats, List.mem_cons] at h
    rcases h with rfl | h
    · exact ⟨rfl, rfl⟩
    · exact ih h

theorem pulledBytes_stringPulls (n : Nat) (c : Byte) (bs : List Byte) : pulledBytes (stringPulls n c bs) = bs := by
  induction bs generalizing c with
  | nil => rfl
  | cons b bs ih => simp [stringPulls, pulledBytes, ih]

theorem eosAnswers_stringPulls (n : Nat) (c : Byte) (bs : List Byte) : eosAnswers (stringPulls n c bs) = 0 := by
  induction bs generalizing c with
  | nil => rfl
  | cons b bs ih => simp [stringPulls, eosAnswers, ih]

/-- One iteration of the loop for each listed byte, from any cursor with a bit left (R110, R113). -/
theorem readStringLoop_of_bytes (bs : List Byte) (en : SourceEnd) {s : State} {c : Byte} (hc : s.cur = .byte c)
    (h0 : s.n ≠ 0) (hs : s.src = ⟨bs, en⟩) (fuel : Nat) :
    ∃ d t, t = { s with cur := .byte d, src := ⟨[], en⟩, ports := s.ports ++ stringPulls s.n.val c bs } ∧
      readStringLoop (bs.length + fuel) s = readStringLoop fuel t := by
  induction bs generalizing s c with
  | nil => exact ⟨c, s, by simp [stringPulls, ← hs, ← hc], by simp⟩
  | cons b bs ih =>
    have hn : s.src.next = some (.byte b, ⟨bs, en⟩) := by rw [hs]; rfl
    obtain ⟨d, t, ht, e⟩ := ih (s := ((s.fill (.byte b) ⟨bs, en⟩).setN s.n).log (.beat (charBeat (spliced s.n.val c b))))
      (c := b) (by simp) (by simpa using h0) (by simp)
    refine ⟨d, t, by simp [ht, State.log, State.fill, State.load, State.setN, stringPulls], ?_⟩
    rw [List.length_cons, Nat.add_right_comm, readStringLoop_of_byte hc, readChar_of_next_byte hc h0 hn, Res.bind_ok, e]

/-- R112, in the middle of a byte on a source that ends: the error, after one data beat for each whole byte left. -/
theorem readStringLoop_of_midbyte (bs : List Byte) {s : State} {c : Byte} (hc : s.cur = .byte c) (h0 : s.n ≠ 0)
    (h8 : s.n ≠ 8) (hs : s.src = ⟨bs, .eos⟩) {fuel : Nat} (hf : bs.length + 1 ≤ fuel) :
    readStringLoop fuel s = .err .endOfStream
      { s with cur := .eos, n := 0, src := ⟨[], .eos⟩, ports := s.ports ++ stringPulls s.n.val c bs ++ [.pull .eos] } := by
  obtain ⟨fuel, rfl⟩ : ∃ f, fuel = bs.length + (f + 1) := ⟨fuel - bs.length - 1, by omega⟩
  obtain ⟨d, t, ht, e⟩ := readStringLoop_of_bytes bs .eos hc h0 hs (fuel + 1)
  have hd : t.cur = .byte d := by rw [ht]
  have hn : t.src.next = some (.eos, ⟨[], .eos⟩) := by rw [ht]; rfl
  rw [e, readStringLoop_of_byte hd, readChar_of_midbyte hd (by rwa [ht]) (by rwa [ht]), refill_of_next hn]
  simp [ht, State.fill, State.log, State.load]

theorem readChar_of_silent {s : State} {b : Byte} (hc : s.cur = .byte b) (h0 : s.n ≠ 0) (hn : s.src.next = none) :
    readChar s = .stuck (.sourceSilent s.ports) := by
  by_cases h8 : s.n = 8
  · rw [readChar_of_aligned hc h8, refill_of_silent hn]; rfl
  · rw [readChar_of_midbyte hc h0 h8, refill_of_silent hn]; rfl

/-- R114: on a source that never ends the loop never leaves, however long it is run. -/
theorem readStringLoop_of_endless (fuel : Nat) {s : State} {b : Byte} (hc : s.cur = .byte b) (h0 : s.n ≠ 0)
    {stream index : Nat} (he : s.src.ending = .endless stream index) :
    readStringLoop fuel s = .stuck .stringEndless := by
  induction fuel generalizing s b index with
  | zero => rfl
  | succ fuel ih =>
    obtain ⟨c, src, hn, j, hj⟩ : ∃ c src, s.src.next = some (.byte c, src) ∧ ∃ j, src.ending = .endless stream j := by
      rcases hs : s.src with ⟨_ | ⟨d, ds⟩, en⟩
      · rw [hs] at he
        subst he
        exact ⟨_, _, rfl, _, rfl⟩
      · rw [hs] at he
        subst he
        exact ⟨_, _, rfl, _, rfl⟩
    rw [readStringLoop_of_byte hc, readChar_of_next_byte hc h0 hn, Res.bind_ok]
    exact ih (b := c) (by simp) (by simpa using h0) (by simpa using hj)

/-- R150: on a source that falls silent the loop hangs there. -/
theorem readStringLoop_of_silent (bs : List Byte) {s : State} {b : Byte} (hc : s.cur = .byte b) (h0 : s.n ≠ 0)
    (hs : s.src = ⟨bs, .silent⟩) {fuel : Nat} (hf : bs.length + 1 ≤ fuel) :
    readStringLoop fuel s = .stuck (.sourceSilent (s.ports ++ stringPulls s.n.val b bs)) := by
  obtain ⟨fuel, rfl⟩ : ∃ f, fuel = bs.length + (f + 1) := ⟨fuel - bs.length - 1, by omega⟩
  obtain ⟨d, t, ht, e⟩ := readStringLoop_of_bytes bs .silent hc h0 hs (fuel + 1)
  have hd : t.cur = .byte d := by rw [ht]
  rw [e, readStringLoop_of_byte hd, readChar_of_silent hd (by rwa [ht]) (by rw [ht]; rfl), ht]
  rfl

/-- Everything RDSTR can do from a cursor with a bit left: deliver all, fail, hang, or never end. -/
theorem readString_cases {s : State} {c : Byte} (hc : s.cur = .byte c) (h0 : s.n ≠ 0) :
    (s.src.ending = .eos ∧ s.n = 8 ∧ readString s =
      .ok () { s with cur := .eos, n := 0, src := ⟨[], .eos⟩, ports := s.ports ++ loopEvents c s.src.bytes }) ∨
    (s.src.ending = .eos ∧ s.n ≠ 8 ∧ readString s =
      .err .endOfStream { s with cur := .eos, n := 0, src := ⟨[], .eos⟩,
                                 ports := s.ports ++ stringPulls s.n.val c s.src.bytes ++ [.pull .eos] }) ∨
    (s.src.ending = .silent ∧
      readString s = .stuck (.sourceSilent (s.ports ++ stringPulls s.n.val c s.src.bytes))) ∨
    (∃ stream index, s.src.ending = .endless stream index ∧ readString s = .stuck .stringEndless) := by
  rw [readString_of_byte hc]
  cases he : s.src.ending with
  | eos =>
    have hs : s.src = ⟨s.src.bytes, .eos⟩ := by rw [← he]
    by_cases h8 : s.n = 8
    · exact .inl ⟨rfl, h8, readStringLoop_of_aligned _ hc h8 hs le_rfl⟩
    · exact .inr (.inl ⟨rfl, h8, readStringLoop_of_midbyte _ hc h0 h8 hs (by omega)⟩)
  | silent =>
    have hs : s.src = ⟨s.src.bytes, .silent⟩ := by rw [← he]
    exact .inr (.inr (.inl ⟨rfl, readStringLoop_of_silent _ hc h0 hs (by omega)⟩))
  | endless stream index =>
    exact .inr (.inr (.inr ⟨stream, index, rfl, readStringLoop_of_endless _ hc h0 he⟩))

theorem readString_of_eos {s : State} (h : s.cur = .eos) : readString s = .err .endOfStream s := by
  rw [readString, if_pos ((State.isEmpty_iff s).2 h)]

end Sys2Proof.Machine
end

