-- ==== Sys2Proof/Laws/Counts.lean ====
section
/-! SUPPORT. Counting: the pulls a run of bits makes (R35), the stream position (R15), and what the invariant says of
both (R47). -/

namespace Sys2Proof.Machine

theorem pulledBytes_of_lastAnswer {es : List PortEvent} {b : Byte} (h : lastAnswer es = some (.byte b)) :
    1 ≤ (pulledBytes es).length := by
  induction es with
  | nil => simp [lastAnswer] at h
  | cons e es ih =>
    rcases e with _ | (c | _) | _
    · exact ih h
    · simp [pulledBytes]
    · simp only [lastAnswer, Option.some.injEq] at h
      cases hl : lastAnswer es with
      | none => simp [hl] at h
      | some a =>
        rw [hl, Option.getD_some] at h
        subst h
        exact ih hl
    · exact ih h

/-- R47: with a byte buffered, at least one byte was pulled. -/
theorem State.Inv.one_le_pulled {s : State} (h : s.Inv) {b : Byte} (hc : s.cur = .byte b) : 1 ≤ s.pulled := by
  obtain ⟨hb, hp⟩ := h.bound_of_byte hc
  exact pulledBytes_of_lastAnswer (by rw [h.cur_is_last_answer hb hp, hc])

theorem fin9_sub_one {n : Fin 9} (h : n ≠ 0) : (n - 1).val = n.val - 1 := by
  revert h; revert n; decide

/-- R15: a bit moves the position by one. -/
theorem readBit_pos {s t : State} {x : Bool} (h : s.Inv) (e : readBit s = .ok x t) : t.pos = s.pos + 1 := by
  rcases readBit_cases s with ⟨-, f⟩ | ⟨b, -, -, f⟩ | ⟨b, hc, h0, h1, f⟩ | ⟨b, -, -, -, f⟩ | ⟨b, a, src, hc, h1, -, f⟩ <;>
    rw [f] at e
  · simp at e
  · simp at e
  · rw [Res.ok.injEq] at e
    obtain ⟨-, rfl⟩ := e
    have hp := h.one_le_pulled hc
    have hn : s.n.val ≠ 0 := fun e => h0 (Fin.ext e)
    have := s.n.isLt
    have hq : (s.setN (s.n - 1)).pulled = s.pulled := rfl
    simp only [State.pos, State.setN_n, fin9_sub_one h0, hq]
    omega
  · simp at e
  · rw [Res.ok.injEq] at e
    obtain ⟨-, rfl⟩ := e
    have hp := h.one_le_pulled hc
    have hv : s.n.val = 1 := by rw [h1]; rfl
    cases a with
    | byte c =>
      have hq : (s.fill (.byte c) src).pulled = s.pulled + 1 := by
        simp [State.pulled, pulledBytes_append, pulledBytes]
      simp only [State.pos, State.fill_byte_n, hq, hv]
      have : (8 : Fin 9).val = 8 := rfl
      omega
    | eos =>
      have hq : (s.fill .eos src).pulled = s.pulled := by simp [State.pulled, pulledBytes_append, pulledBytes]
      simp only [State.pos, State.fill_eos_n, hq, hv]
      have : (0 : Fin 9).val = 0 := rfl
      omega

theorem takeBits_pos {k : Nat} {s t : State} {bs : List Bool} (h : s.Inv) (e : takeBits k s = .ok bs t) :
    t.pos = s.pos + k := by
  induction k generalizing s t bs with
  | zero =>
    simp only [takeBits_zero, Res.ok.injEq] at e
    rw [← e.2]; rfl
  | succ k ih =>
    rw [takeBits_succ] at e
    have hi := readBit_inv h
    cases hb : readBit s with
    | ok x u =>
      rw [hb] at e hi
      rw [Res.bind_ok] at e
      cases hk : takeBits k u with
      | ok cs v =>
        rw [hk, Res.bind_ok, Res.ok.injEq] at e
        rw [← e.2, ih hi hk, readBit_pos h hb]
        omega
      | err c v => simp [hk] at e
      | stuck f => simp [hk] at e
    | err c u => simp [hb] at e
    | stuck f => simp [hb] at e

/-- R35: the pulls of `k` bits from a buffer with `n` left. -/
theorem takeBits_transfers (k : Nat) {s : State} (h : s.Inv) :
    (∀ bs t b, s.cur = .byte b → takeBits k s = .ok bs t →
      transfers t.ports = transfers s.ports + (k + 8 - s.n.val) / 8) ∧
    (∀ c t, takeBits k s = .err c t → transfers t.ports ≤ transfers s.ports + (k + 8 - s.n.val) / 8) := by
  induction k generalizing s with
  | zero =>
    refine ⟨fun bs t b hc e => ?_, fun c t e => by simp at e⟩
    simp only [takeBits_zero, Res.ok.injEq] at e
    have := h.count_of_byte b hc
    rw [← e.2]
    omega
  | succ k ih =>
    have hi := readBit_inv h
    rcases readBit_cases s with ⟨hc, f⟩ | ⟨b, hc, h0, f⟩ | ⟨b, hc, h0, h1, f⟩ | ⟨b, hc, -, -, f⟩ |
      ⟨b, a, src, hc, h1, hn, f⟩
    · refine ⟨fun bs t b hcb _ => by simp [hc] at hcb, fun c t e => ?_⟩
      rw [takeBits_succ, f, Res.bind_err, Res.err.injEq] at e
      rw [← e.2]
      omega
    · have := h.count_of_byte b hc
      simp [h0] at this
    · rw [f] at hi
      obtain ⟨i1, i2⟩ := ih hi
      have hv := fin9_sub_one h0
      have hn0 : s.n.val ≠ 0 := fun e => h0 (Fin.ext e)
      have hlt := s.n.isLt
      refine ⟨fun bs t b' _ e => ?_, fun c t e => ?_⟩
      · rw [takeBits_succ, f, Res.bind_ok] at e
        cases hk : takeBits k (s.setN (s.n - 1)) with
        | ok cs u =>
          rw [hk, Res.bind_ok, Res.ok.injEq] at e
          have := i1 _ _ b (by simpa using hc) hk
          rw [State.setN_n, hv] at this
          rw [← e.2, this]
          simp only [State.setN_ports]
          congr 2; omega
        | err c v => simp [hk] at e
        | stuck f => simp [hk] at e
      · rw [takeBits_succ, f, Res.bind_ok] at e
        cases hk : takeBits k (s.setN (s.n - 1)) with
        | ok cs u => simp [hk] at e
        | err c' v =>
          rw [hk, Res.bind_err, Res.err.injEq] at e
          have := i2 _ _ hk
          rw [State.setN_n, hv, State.setN_ports] at this
          rw [← e.2]
          refine this.trans (Nat.add_le_add_left (Nat.div_le_div_right ?_) _)
          omega
        | stuck f => simp [hk] at e
    · refine ⟨fun bs t b' _ e => ?_, fun c t e => ?_⟩ <;>
        simp [takeBits_succ, f] at e
    · rw [f] at hi
      obtain ⟨i1, i2⟩ := ih hi
      have hv : s.n.val = 1 := by rw [h1]; rfl
      have htr : transfers (s.fill a src).ports = transfers s.ports + 1 := by
        rw [State.fill_ports, transfers_append_pull]
      cases a with
      | byte c =>
        have h8 : (s.fill (.byte c) src).n.val = 8 := rfl
        refine ⟨fun bs t b' _ e => ?_, fun c' t e => ?_⟩
        · rw [takeBits_succ, f, Res.bind_ok] at e
          cases hk : takeBits k (s.fill (.byte c) src) with
          | ok cs u =>
            rw [hk, Res.bind_ok, Res.ok.injEq] at e
            have := i1 _ _ c (by simp) hk
            rw [← e.2, this, htr, h8, hv]
            omega
          | err c v => simp [hk] at e
          | stuck f => simp [hk] at e
        · rw [takeBits_succ, f, Res.bind_ok] at e
          cases hk : takeBits k (s.fill (.byte c) src) with
          | ok cs u => simp [hk] at e
          | err c' v =>
            rw [hk, Res.bind_err, Res.err.injEq] at e
            have := i2 _ _ hk
            rw [htr, h8] at this
            rw [← e.2]
            omega
          | stuck f => simp [hk] at e
      | eos =>
        have he : (s.fill .eos src).cur = .eos := by simp
        refine ⟨fun bs t b' _ e => ?_, fun c' t e => ?_⟩
        · rw [takeBits_succ, f, Res.bind_ok] at e
          cases k with
          | zero =>
            rw [takeBits_zero, Res.bind_ok, Res.ok.injEq] at e
            rw [← e.2, htr, hv]
          | succ k => simp [takeBits_of_eos he] at e
        · rw [takeBits_succ, f, Res.bind_ok] at e
          cases k with
          | zero => simp at e
          | succ k =>
            rw [takeBits_of_eos he, Res.bind_err, Res.err.injEq] at e
            rw [← e.2, htr, hv]
            omega

/-- R124: a read that raises leaves an empty cursor; one that raises with bits left was told EOS. -/
theorem takeBits_err_state {k : Nat} {s t : State} {c : ErrKind} (e : takeBits k s = .err c t) :
    t.cur = .eos ∧ (s.cur = .eos → t = s) := by
  induction k generalizing s t c with
  | zero => simp at e
  | succ k ih =>
    rw [takeBits_succ] at e
    rcases readBit_cases s with ⟨hc, f⟩ | ⟨b, hc, -, f⟩ | ⟨b, hc, -, -, f⟩ | ⟨b, hc, -, -, f⟩ | ⟨b, a, src, hc, -, -, f⟩ <;>
      rw [f] at e
    · rw [Res.bind_err, Res.err.injEq] at e
      rw [← e.2]
      exact ⟨hc, fun _ => rfl⟩
    · simp at e
    · rw [Res.bind_ok] at e
      cases hk : takeBits k (s.setN (s.n - 1)) with
      | ok cs u => simp [hk] at e
      | err c' u =>
        rw [hk, Res.bind_err, Res.err.injEq] at e
        rw [← e.2]
        exact ⟨(ih hk).1, fun h => by simp [hc] at h⟩
      | stuck f => simp [hk] at e
    · simp at e
    · rw [Res.bind_ok] at e
      cases hk : takeBits k (s.fill a src) with
      | ok cs u => simp [hk] at e
      | err c' u =>
        rw [hk, Res.bind_err, Res.err.injEq] at e
        rw [← e.2]
        exact ⟨(ih hk).1, fun h => by simp [hc] at h⟩
      | stuck f => simp [hk] at e

end Sys2Proof.Machine
end

