-- ==== Sys2Proof/Laws/Answers.lean ====
section
/-! SUPPORT. The six ways any instruction can answer, said once: a query, a width turned away, a field read or not, a
string read or not. -/

namespace Sys2Proof.Machine

theorem exec_badCharWidth {r : Nat} (h : r = 0 ∨ 17 ≤ r) (s : State) :
    exec (.rdCharW r) s = .next (s.log (.beat (errBeat .invalidWidth))) := by
  rw [exec, execRdCharW, readCharW, if_neg (by rw [charWidthOk_iff]; omega)]; rfl

theorem exec_badIntWidth {r : Nat} (h : r = 0 ∨ 33 ≤ r) (s : State) :
    exec (.rdIntW r) s = .next (s.log (.beat (errBeat .invalidWidth))) := by
  rw [exec, execRdIntW, readIntW, if_neg (by rw [intWidthOk_iff]; omega)]; rfl

/-- The instructions that turn their width away (R121). -/
def badWidth : Instr → Prop
  | .rdCharW r => r = 0 ∨ 17 ≤ r
  | .rdIntW r => r = 0 ∨ 33 ≤ r
  | .existsQ => False
  | .isEmpty => False
  | .rdBit => False
  | .rdChar => False
  | .rdShort => False
  | .rdInt => False
  | .rdStr => False

theorem exec_badWidth {i : Instr} (h : badWidth i) (s : State) :
    exec i s = .next (s.log (.beat (errBeat .invalidWidth))) := by
  cases i with
  | rdCharW r => exact exec_badCharWidth h s
  | rdIntW r => exact exec_badIntWidth h s
  | existsQ => exact h.elim
  | isEmpty => exact h.elim
  | rdBit => exact h.elim
  | rdChar => exact h.elim
  | rdShort => exact h.elim
  | rdInt => exact h.elim
  | rdStr => exact h.elim

/-- Every instruction is a query, turns its width away, reads a field, or reads a string. -/
theorem instr_kinds (i : Instr) :
    i = .existsQ ∨ i = .isEmpty ∨ badWidth i ∨ (∃ k, fieldWidth i = some k) ∨ i = .rdStr := by
  cases i with
  | existsQ => simp
  | isEmpty => simp
  | rdStr => simp
  | rdBit => exact .inr (.inr (.inr (.inl ⟨1, rfl⟩)))
  | rdChar => exact .inr (.inr (.inr (.inl ⟨8, rfl⟩)))
  | rdShort => exact .inr (.inr (.inr (.inl ⟨16, rfl⟩)))
  | rdInt => exact .inr (.inr (.inr (.inl ⟨32, rfl⟩)))
  | rdCharW r =>
    by_cases h : r = 0 ∨ 17 ≤ r
    · exact .inr (.inr (.inl h))
    · exact .inr (.inr (.inr (.inl ⟨r, fieldWidth_rdCharW (by omega) (by omega)⟩)))
  | rdIntW r =>
    by_cases h : r = 0 ∨ 33 ≤ r
    · exact .inr (.inr (.inl h))
    · exact .inr (.inr (.inr (.inl ⟨r, fieldWidth_rdIntW (by omega) (by omega)⟩)))

/-- A bit read of any width, and so a character, raises nothing but the end of the stream. -/
theorem readChar_err_kind {s t : State} {k : ErrKind} (h : readChar s = .err k t) : k = .endOfStream := by
  rw [readChar_eq_takeBits] at h
  cases e : takeBits 8 s with
  | ok bs u => simp [e] at h
  | err c u =>
    rw [e, Res.bind_err, Res.err.injEq] at h
    rw [← h.1]
    exact takeBits_err_kind e
  | stuck f => simp [e] at h

theorem readStringLoop_err_kind {fuel : Nat} {s t : State} {k : ErrKind} (h : readStringLoop fuel s = .err k t) :
    k = .endOfStream := by
  induction fuel generalizing s with
  | zero => simp [readStringLoop] at h
  | succ fuel ih =>
    rw [readStringLoop] at h
    split at h
    · simp at h
    · cases e : readChar s with
      | ok c u => rw [e, Res.bind_ok] at h; exact ih h
      | err c u =>
        rw [e, Res.bind_err, Res.err.injEq] at h
        rw [← h.1]
        exact readChar_err_kind e
      | stuck f => simp [e] at h

theorem readString_err_kind {s t : State} {k : ErrKind} (h : readString s = .err k t) : k = .endOfStream := by
  rw [readString] at h
  split at h
  · rw [Res.err.injEq] at h
    exact h.1.symm
  · exact readStringLoop_err_kind h

/-- The ways an instruction answers. -/
inductive Answer (i : Instr) (s : State) : State → Prop where
  | existsQ (h : i = .existsQ) : Answer i s (s.log (.beat (okBeat (zextBool s.bound))))
  | isEmpty (h : i = .isEmpty) : Answer i s (s.log (.beat (okBeat (zextBool s.isEmpty))))
  | badWidth (h : badWidth i) : Answer i s (s.log (.beat (errBeat .invalidWidth)))
  | field {k : Nat} {bs : List Bool} {u : State} (hk : fieldWidth i = some k) (e : takeBits k s = .ok bs u) :
      Answer i s (u.log (.beat (okBeat (pushBits (0 : BitVec 32) bs))))
  | noField {k : Nat} {u : State} (hk : fieldWidth i = some k) (e : takeBits k s = .err .endOfStream u) :
      Answer i s (u.log (.beat (errBeat .endOfStream)))
  | string {u : State} (h : i = .rdStr) (e : readString s = .ok () u) : Answer i s (u.log (.beat (okBeat 0)))
  | noString {u : State} (h : i = .rdStr) (e : readString s = .err .endOfStream u) :
      Answer i s (u.log (.beat (errBeat .endOfStream)))

/-- Whatever an instruction answers is one of these. -/
theorem exec_answer {i : Instr} {s t : State} (h : exec i s = .next t) : Answer i s t := by
  rcases instr_kinds i with rfl | rfl | hw | ⟨k, hk⟩ | rfl
  · simp only [exec, execExists, respond, Host.Outcome.next.injEq] at h
    exact h ▸ .existsQ rfl
  · simp only [exec, execIsEmpty, respond, Host.Outcome.next.injEq] at h
    exact h ▸ .isEmpty rfl
  · rw [exec_badWidth hw, Host.Outcome.next.injEq] at h
    exact h ▸ .badWidth hw
  · cases e : takeBits k s with
    | ok bs u =>
      rw [exec_of_takeBits_ok hk e, Host.Outcome.next.injEq] at h
      exact h ▸ .field hk e
    | err c u =>
      rw [exec_of_takeBits_err hk e, Host.Outcome.next.injEq] at h
      obtain rfl := takeBits_err_kind e
      exact h ▸ .noField hk e
    | stuck f => simp [exec_of_takeBits_stuck hk e] at h
  · rw [exec, execRdStr] at h
    cases e : readString s with
    | ok v u =>
      simp only [e, Res.bind_ok, respond, Host.Outcome.next.injEq] at h
      exact h ▸ .string rfl e
    | err c u =>
      simp only [e, Res.bind_err, respond, Host.Outcome.next.injEq] at h
      obtain rfl := readString_err_kind e
      exact h ▸ .noString rfl e
    | stuck f => simp [e, respond] at h

/-- The invariant stays, and the final beat with it. -/
theorem exec_inv {i : Instr} {s t : State} (hi : s.Inv) (hp : s.priming = false) (h : exec i s = .next t) : t.Inv := by
  have g := operation_inv i hi
  rcases follows_commandRel.exec h with ⟨d, u, e, hf, rfl⟩ | ⟨k, u, e, hf, rfl⟩ <;> rw [e] at g
  · exact State.Inv.beat g (hf.priming.trans hp) _
  · exact State.Inv.beat g (hf.priming.trans hp) _

end Sys2Proof.Machine
end

