-- ==== Sys2Proof/Laws/Remaining.lean ====
section
/-! SUPPORT. The remaining bit stream `R` on every source, ending or not (R8): its bits, its length, and that a read of
`k` bits takes the first `k` of them, or fails and leaves none (R45). -/

namespace Sys2Proof.Machine

/-! ### The bytes of a source -/

theorem Source.byteAt_of_lt {src : Source} {k : Nat} (h : k < src.bytes.length) : src.byteAt k = some src.bytes[k] := by
  rw [Source.byteAt, List.getElem?_eq_getElem h]

/-- A pulled byte was byte 0, and what is left is the rest (R30). -/
theorem Source.byteAt_of_next {src src' : Source} {b : Byte} (h : src.next = some (.byte b, src')) :
    src.byteAt 0 = some b ∧ ∀ k, src'.byteAt k = src.byteAt (k + 1) := by
  rcases src with ⟨_ | ⟨c, bs⟩, en⟩
  · rcases en with _ | _ | ⟨stream, index⟩ <;> simp only [Source.next, Option.some.injEq, Prod.mk.injEq,
      ByteOrEos.byte.injEq, reduceCtorEq, false_and] at h
    obtain ⟨rfl, rfl⟩ := h
    refine ⟨rfl, fun k => ?_⟩
    simp [Source.byteAt, Nat.add_assoc, Nat.add_comm 1]
  · simp only [Source.next, Option.some.injEq, Prod.mk.injEq, ByteOrEos.byte.injEq] at h
    obtain ⟨rfl, rfl⟩ := h
    refine ⟨rfl, fun k => ?_⟩
    simp only [Source.byteAt, List.getElem?_cons_succ, List.length_cons, Nat.add_sub_add_right]

theorem Source.byteAt_of_next_eos {src src' : Source} (h : src.next = some (.eos, src')) (k : Nat) :
    src.byteAt k = none := by
  rcases src with ⟨_ | ⟨b, bs⟩, _ | _ | _⟩ <;> simp_all [Source.next, Source.byteAt]

theorem Source.answers_of_next {src src' : Source} {a : ByteOrEos} (h : src.next = some (a, src'))
    (ha : src.answers = true) : src'.answers = true := by
  rcases src with ⟨_ | ⟨b, bs⟩, _ | _ | _⟩ <;> simp_all [Source.next, Source.answers] <;> obtain ⟨-, rfl⟩ := h <;> rfl

theorem Source.next_of_answers {src : Source} (ha : src.answers = true) : ∃ a src', src.next = some (a, src') := by
  rcases src with ⟨_ | ⟨b, bs⟩, _ | _ | _⟩ <;> simp_all [Source.next, Source.answers]

/-- Which bytes a source still has. -/
theorem Source.byteAt_isSome (src : Source) (k : Nat) :
    (src.byteAt k).isSome = true ↔ k < src.bytes.length ∨ ∃ stream index, src.ending = .endless stream index := by
  by_cases h : k < src.bytes.length
  · simp [Source.byteAt_of_lt h, h]
  · rcases src with ⟨bs, _ | _ | _⟩ <;> simp_all [Source.byteAt]

/-! ### The bits and the length of `R` -/

@[simp] theorem State.log_bitAt (s : State) (e : PortEvent) : (s.log e).bitAt = s.bitAt := rfl
@[simp] theorem State.log_firstBits (s : State) (e : PortEvent) : (s.log e).firstBits = s.firstBits := rfl
@[simp] theorem State.log_remainingLength (s : State) (e : PortEvent) :
    (s.log e).remainingLength = s.remainingLength := rfl

theorem State.bitAt_of_eos {s : State} (h : s.cur = .eos) (k : Nat) : s.bitAt k = none := by simp [State.bitAt, h]

theorem State.remainingLength_of_eos {s : State} (h : s.cur = .eos) : s.remainingLength = .finite 0 := by
  simp [State.remainingLength, h]

theorem State.remainingLength_of_endless {s : State} {b : Byte} (h : s.cur = .byte b) {stream index : Nat}
    (he : s.src.ending = .endless stream index) : s.remainingLength = .infinite := by
  simp [State.remainingLength, h, he]

theorem State.remainingLength_of_listed {s : State} {b : Byte} (h : s.cur = .byte b)
    (he : ∀ stream index, s.src.ending ≠ .endless stream index) :
    s.remainingLength = .finite (s.n.val + 8 * s.src.bytes.length) := by
  cases hs : s.src.ending with
  | eos => simp [State.remainingLength, h, hs]
  | silent => simp [State.remainingLength, h, hs]
  | endless stream index => exact absurd hs (he _ _)

/-- `R` has a bit at every place before its end, and none after it. -/
theorem State.bitAt_isSome (s : State) (k : Nat) : (s.bitAt k).isSome = s.remainingLength.atLeast (k + 1) := by
  rw [Bool.eq_iff_iff]
  cases hc : s.cur with
  | eos => simp [State.bitAt_of_eos hc, State.remainingLength_of_eos hc, StreamLength.atLeast]
  | byte b =>
    have hl : (s.bitAt k).isSome = true ↔ k < s.n.val ∨ (s.src.byteAt ((k - s.n.val) / 8)).isSome = true := by
      rw [State.bitAt, hc]
      by_cases h : k < s.n.val <;> simp [h]
    rw [hl, Source.byteAt_isSome]
    cases hs : s.src.ending with
    | endless stream index => simp [State.remainingLength_of_endless hc hs, StreamLength.atLeast]
    | eos =>
      rw [State.remainingLength_of_listed hc (by simp [hs])]
      simp only [StreamLength.atLeast, decide_eq_true_eq, reduceCtorEq, exists_false, or_false]
      omega
    | silent =>
      rw [State.remainingLength_of_listed hc (by simp [hs])]
      simp only [StreamLength.atLeast, decide_eq_true_eq, reduceCtorEq, exists_false, or_false]
      omega

/-- The length of `R` is 0 exactly when the cursor is empty (R71). -/
theorem State.Inv.remainingLength_eq_zero {s : State} (h : s.Inv) : s.remainingLength = .finite 0 ↔ s.cur = .eos := by
  refine ⟨fun e => ?_, State.remainingLength_of_eos⟩
  cases hc : s.cur with
  | eos => rfl
  | byte b =>
    have := h.count_of_byte b hc
    cases hs : s.src.ending with
    | endless stream index => simp [State.remainingLength_of_endless hc hs] at e
    | eos =>
      rw [State.remainingLength_of_listed hc (by simp [hs]), StreamLength.finite.injEq] at e
      omega
    | silent =>
      rw [State.remainingLength_of_listed hc (by simp [hs]), StreamLength.finite.injEq] at e
      omega

theorem StreamLength.atLeast_minus_succ (l : StreamLength) (j k : Nat) :
    (l.minus j).atLeast (k + 1) = l.atLeast (j + k + 1) := by
  cases l <;> simp only [StreamLength.minus, StreamLength.atLeast]
  exact decide_eq_decide.2 (by omega)

/-- A length is known by which places are before its end. -/
theorem StreamLength.ext_atLeast {l m : StreamLength} (h : ∀ k, l.atLeast (k + 1) = m.atLeast (k + 1)) : l = m := by
  cases l with
  | finite a =>
    cases m with
    | finite b =>
      have ha := h a
      have hb := h b
      simp only [StreamLength.atLeast, decide_eq_decide] at ha hb
      rw [show a = b by omega]
    | infinite => simpa [StreamLength.atLeast] using h a
  | infinite =>
    cases m with
    | finite b => simpa [StreamLength.atLeast] using h b
    | infinite => rfl

theorem StreamLength.atLeast_of_le {l : StreamLength} {j k : Nat} (h : l.atLeast k = true) (hj : j ≤ k) :
    l.atLeast j = true := by
  cases l <;> simp_all [StreamLength.atLeast]
  omega

/-! ### `R` as a list -/

theorem lowBits_getElem? (n : Nat) (b : Byte) (k : Nat) :
    (lowBits n b)[k]? = if k < n then some (b.getLsbD (n - 1 - k)) else none := by
  induction n generalizing k with
  | zero => simp [lowBits]
  | succ n ih =>
    cases k with
    | zero => simp [lowBits]
    | succ k =>
      rw [lowBits, List.getElem?_cons_succ, ih, show n + 1 - 1 - (k + 1) = n - 1 - k by omega]
      simp

theorem bytesBits_getElem? (bs : List Byte) (k : Nat) :
    (bytesBits bs)[k]? = bs[k / 8]?.map fun b => b.getLsbD (7 - k % 8) := by
  induction bs generalizing k with
  | nil => simp [bytesBits]
  | cons b bs ih =>
    rw [bytesBits]
    by_cases h : k < 8
    · rw [List.getElem?_append_left (by rwa [lowBits_length]), lowBits_getElem?, if_pos h, show k / 8 = 0 by omega,
        Nat.mod_eq_of_lt h]
      rfl
    · rw [List.getElem?_append_right (by rw [lowBits_length]; omega), lowBits_length, ih,
        show k / 8 = (k - 8) / 8 + 1 by omega, show k % 8 = (k - 8) % 8 by omega]
      rfl

theorem freeBytes_getElem? (stream index count k : Nat) :
    (freeBytes stream index count)[k]? = if k < count then some (Config.endlessByte stream (index + k)) else none := by
  induction count generalizing index k with
  | zero => simp [freeBytes]
  | succ count ih =>
    cases k with
    | zero => simp [freeBytes]
    | succ k => simp [freeBytes, ih, Nat.add_assoc, Nat.add_comm 1 k]

/-- The bits of `R` over any list that starts as the source's bytes do. -/
theorem State.bitAt_of_list {s : State} {c : Byte} (hc : s.cur = .byte c) {bs : List Byte} {k : Nat}
    (h : s.n.val ≤ k → s.src.byteAt ((k - s.n.val) / 8) = bs[(k - s.n.val) / 8]?) :
    s.bitAt k = (lowBits s.n.val c ++ bytesBits bs)[k]? := by
  rw [State.bitAt, hc]
  by_cases hk : k < s.n.val
  · rw [List.getElem?_append_left (by rwa [lowBits_length]), lowBits_getElem?]
    simp [hk]
  · rw [List.getElem?_append_right (by rw [lowBits_length]; omega), lowBits_length, bytesBits_getElem?,
      ← h (by omega)]
    simp [hk]

theorem Source.byteAt_of_listed {src : Source} (he : ∀ stream index, src.ending ≠ .endless stream index) (k : Nat) :
    src.byteAt k = src.bytes[k]? := by
  rcases src with ⟨bs, _ | _ | _⟩
  · cases h : bs[k]? <;> simp [Source.byteAt, h]
  · cases h : bs[k]? <;> simp [Source.byteAt, h]
  · exact absurd rfl (he _ _)

theorem Source.byteAt_of_endless {src : Source} {stream index : Nat} (he : src.ending = .endless stream index)
    {k count : Nat} (hk : k < src.bytes.length + count) :
    src.byteAt k = (src.bytes ++ freeBytes stream index count)[k]? := by
  by_cases h : k < src.bytes.length
  · rw [Source.byteAt_of_lt h, List.getElem?_append_left h, List.getElem?_eq_getElem h]
  · rw [List.getElem?_append_right (by omega), freeBytes_getElem?, if_pos (by omega), Source.byteAt,
      List.getElem?_eq_none (by omega), he]

theorem filterMap_range_of_getElem? {α : Type} {f : Nat → Option α} {l : List α} (h : ∀ k < l.length, f k = l[k]?) :
    (List.range l.length).filterMap f = l := by
  induction l generalizing f with
  | nil => rfl
  | cons a l ih =>
    rw [List.length_cons, List.range_succ_eq_map, List.filterMap_cons, h 0 (by simp), List.filterMap_map,
      ih fun k hk => by rw [Function.comp_apply, h (k + 1) (by simpa using hk)]; rfl]
    rfl

/-- There are `k` first bits if `R` has that many. -/
theorem State.firstBits_length {k : Nat} {s : State} (h : s.remainingLength.atLeast k = true) :
    (s.firstBits k).length = k := by
  induction k with
  | zero => rfl
  | succ k ih =>
    obtain ⟨b, hb⟩ := Option.isSome_iff_exists.1 ((s.bitAt_isSome k).trans h)
    have hl := ih (StreamLength.atLeast_of_le h (by omega))
    rw [State.firstBits] at hl ⊢
    rw [List.range_succ, List.filterMap_append, List.length_append, hl]
    simp [hb]

/-! ### A bit, and `k` bits -/

/-- `k` bits were taken off the front of `R`. -/
def Consumed (k : Nat) (s t : State) : Prop := ∀ j, t.bitAt j = s.bitAt (k + j)

theorem Consumed.trans {j k : Nat} {s t u : State} (h : Consumed j s t) (g : Consumed k t u) : Consumed (j + k) s u :=
  fun i => by rw [g, h, Nat.add_assoc]

theorem Consumed.remainingLength {k : Nat} {s t : State} (h : Consumed k s t) :
    t.remainingLength = s.remainingLength.minus k :=
  StreamLength.ext_atLeast fun j => by
    rw [StreamLength.atLeast_minus_succ, ← State.bitAt_isSome, ← State.bitAt_isSome, h]

/-- The first bits are the first one and the first of what follows it. -/
theorem State.firstBits_succ {s t : State} {b : Bool} (h0 : s.bitAt 0 = some b) (h : Consumed 1 s t) (k : Nat) :
    s.firstBits (k + 1) = b :: t.firstBits k := by
  simp only [State.firstBits, List.range_succ_eq_map, List.filterMap_cons, h0, List.filterMap_map]
  congr 2
  funext j
  rw [Function.comp_apply, h j, Nat.add_comm]

/-- R34: the byte a refill loads is the next of the source. -/
theorem consumed_fill {s : State} {c : Byte} (hc : s.cur = .byte c) (h1 : s.n = 1) {a : ByteOrEos} {src : Source}
    (hn : s.src.next = some (a, src)) : Consumed 1 s (s.fill a src) := by
  have hv : s.n.val = 1 := by rw [h1]; rfl
  intro j
  cases a with
  | eos =>
    rw [State.bitAt_of_eos (by simp), State.bitAt, hc]
    simp [hv, Source.byteAt_of_next_eos hn]
  | byte d =>
    obtain ⟨hd, hr⟩ := Source.byteAt_of_next hn
    rw [State.bitAt, State.bitAt, hc]
    simp only [State.fill_cur, State.fill_byte_n, State.fill_src, hv, show (8 : Fin 9).val = 8 from rfl]
    rw [if_neg (by omega : ¬ 1 + j < 1)]
    by_cases hj : j < 8
    · rw [if_pos hj, show (1 + j - 1) / 8 = 0 by omega, hd, Option.map_some]
      congr 2
      omega
    · rw [if_neg hj, hr, show (1 + j - 1) / 8 = (j - 8) / 8 + 1 by omega, show (1 + j - 1) % 8 = (j - 8) % 8 by omega]

/-- A bit that is not the buffered byte's last. -/
theorem consumed_setN {s : State} {c : Byte} (hc : s.cur = .byte c) (h0 : s.n ≠ 0) :
    Consumed 1 s (s.setN (s.n - 1)) := by
  have hp : 0 < s.n.val := Nat.pos_of_ne_zero fun e => h0 (Fin.ext e)
  intro j
  rw [State.bitAt, State.bitAt, State.setN_cur, hc]
  simp only [State.setN_n, State.setN_src, fin9_sub_one h0]
  by_cases hj : j < s.n.val - 1
  · rw [if_pos hj, if_pos (by omega : 1 + j < s.n.val)]
    congr 2
    omega
  · rw [if_neg hj, if_neg (by omega : ¬ 1 + j < s.n.val), show 1 + j - s.n.val = j - (s.n.val - 1) by omega]

/-- R80 with a bit left, and an answer to the pull if it is the buffered byte's last: the bit is the first of `R`. -/
theorem readBit_of_bit {s : State} {c : Byte} (hc : s.cur = .byte c) (h0 : s.n ≠ 0)
    (hn : s.n = 1 → s.src.next ≠ none) :
    ∃ b t, readBit s = .ok b t ∧ s.bitAt 0 = some b ∧ Consumed 1 s t := by
  have hp : 0 < s.n.val := Nat.pos_of_ne_zero fun e => h0 (Fin.ext e)
  have hb : s.bitAt 0 = some (c.getLsbD (s.n.val - 1)) := by simp [State.bitAt, hc, hp]
  by_cases h1 : s.n = 1
  · obtain ⟨⟨a, src⟩, he⟩ := Option.ne_none_iff_exists'.1 (hn h1)
    exact ⟨_, s.fill a src, by rw [readBit_of_last hc h1, refill_setN, refill_of_next he]; rfl, by rw [hb, h1]; rfl,
      consumed_fill hc h1 he⟩
  · exact ⟨_, _, readBit_of_more hc h0 h1, hb, consumed_setN hc h0⟩

/-- On a source that answers, a bit read keeps it so. -/
theorem readBit_answers {s t : State} {b : Bool} (ha : s.src.answers = true) (e : readBit s = .ok b t) :
    t.src.answers = true := by
  rcases readBit_cases s with ⟨-, f⟩ | ⟨c, -, -, f⟩ | ⟨c, -, -, -, f⟩ | ⟨c, -, -, -, f⟩ | ⟨c, a, src, -, -, hn, f⟩ <;>
    rw [f] at e <;> simp only [Res.ok.injEq, reduceCtorEq] at e <;> obtain ⟨-, rfl⟩ := e
  · simpa using ha
  · simpa using Source.answers_of_next hn ha

/-- R45 with enough bits left, on a source that answers: the first `k` of `R`. -/
theorem takeBits_of_atLeast (k : Nat) {s : State} (h : s.Inv) (ha : s.src.answers = true)
    (hk : s.remainingLength.atLeast k = true) :
    ∃ t, takeBits k s = .ok (s.firstBits k) t ∧ Consumed k s t ∧ t.src.answers = true ∧ t.Inv := by
  induction k generalizing s with
  | zero => exact ⟨s, rfl, fun j => by rw [Nat.zero_add], ha, h⟩
  | succ k ih =>
    cases hc : s.cur with
    | eos => simp [State.remainingLength_of_eos hc, StreamLength.atLeast] at hk
    | byte c =>
      have h0 : s.n ≠ 0 := fun e => by simpa [e] using h.count_of_byte c hc
      obtain ⟨a, src, hn⟩ := Source.next_of_answers ha
      obtain ⟨b, t, e, hb, hct⟩ := readBit_of_bit hc h0 fun _ => by simp [hn]
      have hit := readBit_inv h
      rw [e] at hit
      rw [Nat.add_comm] at hk
      obtain ⟨u, e', hcu, hau, hiu⟩ := ih hit (readBit_answers ha e) (by
        rw [hct.remainingLength]
        cases k with
        | zero => cases s.remainingLength <;> simp [StreamLength.minus, StreamLength.atLeast]
        | succ k => rw [StreamLength.atLeast_minus_succ]; exact hk)
      refine ⟨u, ?_, ?_, hau, hiu⟩
      · rw [takeBits_succ, e, Res.bind_ok, e', Res.bind_ok, State.firstBits_succ hb hct]
      · rw [Nat.add_comm]; exact hct.trans hcu

/-- R45 with too few bits left, on a source that answers: the error, and `R` is empty. -/
theorem takeBits_of_short (k : Nat) {s : State} (h : s.Inv) (ha : s.src.answers = true)
    (hk : s.remainingLength.atLeast k = false) :
    ∃ t, takeBits k s = .err .endOfStream t ∧ t.cur = .eos ∧ t.Inv ∧ (s.cur = .eos → t = s) := by
  induction k generalizing s with
  | zero => cases hl : s.remainingLength <;> simp [hl, StreamLength.atLeast] at hk
  | succ k ih =>
    cases hc : s.cur with
    | eos => exact ⟨s, takeBits_of_eos hc k, hc, h, fun _ => rfl⟩
    | byte c =>
      have h0 : s.n ≠ 0 := fun e => by simpa [e] using h.count_of_byte c hc
      obtain ⟨a, src, hn⟩ := Source.next_of_answers ha
      obtain ⟨b, t, e, hb, hct⟩ := readBit_of_bit hc h0 fun _ => by simp [hn]
      have hit := readBit_inv h
      rw [e] at hit
      obtain ⟨u, e', hu, hiu, -⟩ := ih hit (readBit_answers ha e) (by
        rw [hct.remainingLength]
        cases k with
        | zero =>
          have := State.bitAt_isSome s 0
          rw [hb, hk] at this
          simp at this
        | succ k => rw [StreamLength.atLeast_minus_succ, Nat.add_comm 1 k]; exact hk)
      exact ⟨u, by rw [takeBits_succ, e, Res.bind_ok, e']; rfl, hu, hiu, nofun⟩

/-- Bits that the buffered byte and the listed bytes satisfy, with one to spare: no answer past the list is needed. -/
theorem takeBits_of_listed (k : Nat) {s : State} {c : Byte} (hc : s.cur = .byte c) (h0 : s.n ≠ 0)
    (hk : k < s.n.val + 8 * s.src.bytes.length) :
    ∃ t, takeBits k s = .ok (s.firstBits k) t ∧ Consumed k s t := by
  induction k generalizing s c with
  | zero => exact ⟨s, rfl, fun j => by rw [Nat.zero_add]⟩
  | succ k ih =>
    by_cases h1 : s.n = 1
    · have hv : s.n.val = 1 := by rw [h1]; rfl
      cases hb : s.src.bytes with
      | nil => rw [hb, hv] at hk; simp at hk
      | cons d bs =>
        have hn : s.src.next = some (.byte d, ⟨bs, s.src.ending⟩) := by rw [Source.next, hb]
        have hct := consumed_fill hc h1 hn
        have hbit : s.bitAt 0 = some (c.getLsbD 0) := by simp [State.bitAt, hc, hv]
        obtain ⟨u, e', hcu⟩ := ih (s := s.fill (.byte d) ⟨bs, s.src.ending⟩) (c := d) (by simp) (by simp)
          (by simp only [State.fill_byte_n, State.fill_src, show (8 : Fin 9).val = 8 from rfl]
              rw [hb, hv, List.length_cons] at hk
              omega)
        refine ⟨u, ?_, by rw [Nat.add_comm]; exact hct.trans hcu⟩
        rw [takeBits_succ, readBit_of_last hc h1, refill_setN, refill_of_next hn, Res.bind_ok, Res.bind_ok, e',
          Res.bind_ok, State.firstBits_succ hbit hct]
    · have hp : 0 < s.n.val := Nat.pos_of_ne_zero fun e => h0 (Fin.ext e)
      have hq : s.n.val ≠ 1 := fun e => h1 (Fin.ext e)
      have hct := consumed_setN hc h0
      have hbit : s.bitAt 0 = some (c.getLsbD (s.n.val - 1)) := by simp [State.bitAt, hc, hp]
      obtain ⟨u, e', hcu⟩ := ih (s := s.setN (s.n - 1)) (c := c) (by simpa using hc)
        (fun e => by have := congrArg Fin.val e; simp [fin9_sub_one h0] at this; omega)
        (by simp only [State.setN_n, State.setN_src, fin9_sub_one h0]; omega)
      refine ⟨u, ?_, by rw [Nat.add_comm]; exact hct.trans hcu⟩
      rw [takeBits_succ, readBit_of_more hc h0 h1, Res.bind_ok, e', Res.bind_ok, State.firstBits_succ hbit hct]

/-- A read that needs a byte after the listed ones from a source that falls silent: it hangs, after pulling every listed
byte (R150). -/
theorem takeBits_of_silent (k : Nat) {s : State} {c : Byte} (hc : s.cur = .byte c) (h0 : s.n ≠ 0)
    (hs : s.src.ending = .silent) (hk : s.n.val + 8 * s.src.bytes.length ≤ k) :
    takeBits k s = .stuck (.sourceSilent (s.ports ++ s.src.bytes.map fun b => .pull (.byte b))) := by
  have hp : 0 < s.n.val := Nat.pos_of_ne_zero fun e => h0 (Fin.ext e)
  generalize hbs : s.src.bytes = bs at hk ⊢
  induction bs generalizing s c k with
  | nil =>
    obtain ⟨m, hm⟩ : ∃ m, s.n.val = m + 1 := ⟨s.n.val - 1, by omega⟩
    obtain ⟨j, rfl⟩ : ∃ j, k = (m + 1) + j := ⟨k - (m + 1), by simp at hk; omega⟩
    have hn : s.src.next = none := by rw [Source.next, hbs, hs]
    rw [takeBits_add, takeBits_of_byte m hc hm, refill_of_silent hn]
    simp
  | cons b bs ih =>
    obtain ⟨m, hm⟩ : ∃ m, s.n.val = m + 1 := ⟨s.n.val - 1, by omega⟩
    obtain ⟨j, rfl⟩ : ∃ j, k = (m + 1) + j := ⟨k - (m + 1), by simp at hk; omega⟩
    have hn : s.src.next = some (.byte b, ⟨bs, .silent⟩) := by rw [Source.next, hbs, hs]
    rw [takeBits_add, takeBits_of_byte m hc hm, refill_of_next hn, Res.bind_ok, Res.bind_ok,
      ih j (s := s.fill (.byte b) ⟨bs, .silent⟩) (c := b) (by simp) (by simp) (by simp) (by simp) (by simp)
        (by simp only [State.fill_byte_n, show (8 : Fin 9).val = 8 from rfl]
            rw [hm, List.length_cons] at hk
            omega)]
    simp

end Sys2Proof.Machine
end

