-- ==== Sys2Proof/Laws/Cut.lean ====
section
/-! SUPPORT. A command on a source cut after `k` bytes does what it does on the whole source for as long as its log has
`k` entries (R142; entry 9): what `abandon` rests on. -/

namespace Sys2Proof.Machine

/-! ### The cut and the skipped source -/

theorem Source.cut_eos (bs : List Byte) (k : Nat) :
    Source.cut k ⟨bs, .eos⟩ = if bs.length ≤ k then ⟨bs, .eos⟩ else ⟨bs.take k, .silent⟩ := by
  induction bs generalizing k with
  | nil => cases k <;> rfl
  | cons b bs ih =>
    cases k with
    | zero => rfl
    | succ k =>
      simp only [Source.cut, Source.next, ih, List.length_cons, Nat.add_le_add_iff_right, List.take_succ_cons]
      split <;> rfl

theorem Source.cut_silent (bs : List Byte) (k : Nat) : Source.cut k ⟨bs, .silent⟩ = ⟨bs.take k, .silent⟩ := by
  induction bs generalizing k with
  | nil => cases k <;> rfl
  | cons b bs ih =>
    cases k with
    | zero => rfl
    | succ k => simp only [Source.cut, Source.next, ih, List.take_succ_cons]

theorem Source.cut_endless (bs : List Byte) (stream index k : Nat) :
    Source.cut k ⟨bs, .endless stream index⟩ = ⟨(bs ++ freeBytes stream index k).take k, .silent⟩ := by
  induction k generalizing bs index with
  | zero => cases bs <;> rfl
  | succ k ih =>
    cases bs with
    | nil =>
      simp only [Source.cut, Source.next, ih, List.nil_append, freeBytes, List.take_succ_cons]
    | cons b bs =>
      simp only [Source.cut, Source.next, ih, List.cons_append, List.take_succ_cons, Source.mk.injEq, List.cons.injEq,
        true_and, and_true]
      rw [freeBytes_add, ← List.append_assoc]
      exact (List.take_append_of_le_length (by simp)).symm

/-- What a cut source answers, as long as the whole one does. -/
theorem Source.cut_next_byte {src src' : Source} {b : Byte} (h : src.next = some (.byte b, src')) (k : Nat) :
    (src.cut (k + 1)).next = some (.byte b, src'.cut k) := by
  rw [Source.cut, h]; rfl

theorem Source.cut_next_eos {src src' : Source} (h : src.next = some (.eos, src')) (k : Nat) :
    (src.cut k).next = some (.eos, src'.cut k) := by
  obtain rfl := Source.next_eos h
  have hs : src.cut k = ⟨[], .eos⟩ := by cases k <;> rw [Source.cut, h]
  rw [hs, Source.cut_eos]; rfl

theorem Source.cut_next_none {src : Source} (h : src.next = none) (k : Nat) : (src.cut k).next = none := by
  cases k <;> rw [Source.cut, h] <;> rfl

theorem Source.cut_zero_next_none {src src' : Source} {b : Byte} (h : src.next = some (.byte b, src')) :
    (src.cut 0).next = none := by
  rw [Source.cut, h]; rfl

/-- The source after `k` of its bytes, on one that is not endless. -/
theorem Source.skip_listed {bs : List Byte} {en : SourceEnd} (he : ∀ stream index, en ≠ .endless stream index) (k : Nat) :
    Source.skip k ⟨bs, en⟩ = ⟨bs.drop k, en⟩ := by
  induction bs generalizing k with
  | nil =>
    cases k with
    | zero => rfl
    | succ k =>
      cases en with
      | eos => rfl
      | silent => rfl
      | endless stream index => exact absurd rfl (he _ _)
  | cons b bs ih =>
    cases k with
    | zero => rfl
    | succ k => simp only [Source.skip, Source.next, ih, List.drop_succ_cons]

theorem Source.skip_endless (bs : List Byte) (stream index k : Nat) :
    Source.skip k ⟨bs, .endless stream index⟩ = ⟨bs.drop k, .endless stream (index + (k - bs.length))⟩ := by
  induction k generalizing bs index with
  | zero => simp [Source.skip]
  | succ k ih =>
    cases bs with
    | nil =>
      simp only [Source.skip, Source.next, ih, List.drop_nil, List.length_nil, Nat.sub_zero, Source.mk.injEq,
        SourceEnd.endless.injEq, true_and]
      omega
    | cons b bs => simp only [Source.skip, Source.next, ih, List.drop_succ_cons, List.length_cons, Nat.add_sub_add_right]

/-! ### A run on the cut source -/

theorem State.cur_cases (s : State) : s.cur = .eos ∨ ∃ b, s.cur = .byte b := by
  cases s.cur with
  | eos => exact .inl rfl
  | byte b => exact .inr ⟨b, rfl⟩

/-- `s` on its source cut after `k` bytes. -/
def State.cut (k : Nat) (s : State) : State := { s with src := s.src.cut k }

section cut
variable (k : Nat) (s : State)
@[simp] theorem State.cut_cur : (s.cut k).cur = s.cur := rfl
@[simp] theorem State.cut_n : (s.cut k).n = s.n := rfl
@[simp] theorem State.cut_src : (s.cut k).src = s.src.cut k := rfl
@[simp] theorem State.cut_ports : (s.cut k).ports = s.ports := rfl
@[simp] theorem State.cut_fill (a : ByteOrEos) (src : Source) :
    (s.cut k).fill a (src.cut k) = (s.fill a src).cut k := by cases a <;> rfl
theorem State.cut_of_src {s : State} {k : Nat} (h : s.src.cut k = s.src) : s.cut k = s := by rw [State.cut, h]
end cut

/-- `t` is `s` on a cut source that still has the bytes a log of `B` entries can hold. -/
def CutTo (B : Nat) (s t : State) : Prop := ∃ k, t = s.cut k ∧ B ≤ s.ports.length + k

/-- The log an operation leaves where it ends, or hangs on its source. -/
def Res.logged {α : Type} : Res α → Option (List PortEvent)
  | .ok _ s => some s.ports
  | .err _ s => some s.ports
  | .stuck (.sourceSilent p) => some p
  | .stuck .stringEndless => none
  | .stuck .brokenCursor => none

/-- How an operation on the cut source (`r`) goes against the same on the whole one (`r'`): alike, or it hangs when its
log has `B` entries, with which the other log begins. -/
def Res.CutTo {α : Type} (B : Nat) (r r' : Res α) : Prop :=
  (∃ v s t, r = .ok v t ∧ r' = .ok v s ∧ Machine.CutTo B s t) ∨
  (∃ k s t, r = .err k t ∧ r' = .err k s ∧ Machine.CutTo B s t) ∨
  (∃ f, r = .stuck f ∧ r' = .stuck f) ∨
  (∃ p, r = .stuck (.sourceSilent p) ∧ B ≤ p.length ∧ ∀ q, r'.logged = some q → p <+: q)

/-- Whatever follows only adds to a log. -/
theorem Res.logged_bind {α β : Type} {r : Res α} {f : α → State → Res β} (hf : ∀ v t, (f v t).Within (Follows t))
    {q : List PortEvent} (h : (r.bind f).logged = some q) : ∃ p, r.logged = some p ∧ p <+: q := by
  match r, h with
  | .ok v t, h =>
    refine ⟨t.ports, rfl, ?_⟩
    have g := hf v t
    rw [Res.bind_ok] at h
    match hr : f v t with
    | .ok w u =>
      rw [hr] at g h
      obtain ⟨es, he, -⟩ := g.ports
      exact ⟨es, by rw [← he]; exact Option.some.inj h⟩
    | .err k u =>
      rw [hr] at g h
      obtain ⟨es, he, -⟩ := g.ports
      exact ⟨es, by rw [← he]; exact Option.some.inj h⟩
    | .stuck (.sourceSilent p) =>
      rw [hr] at g h
      obtain ⟨u, hu, e⟩ := g
      obtain ⟨es, he, -⟩ := hu.ports
      exact ⟨es, by rw [← he, e]; exact Option.some.inj h⟩
    | .stuck .stringEndless => rw [hr] at h; simp [Res.logged] at h
    | .stuck .brokenCursor => rw [hr] at h; simp [Res.logged] at h
  | .err k t, h => exact ⟨q, h, List.prefix_refl q⟩
  | .stuck (.sourceSilent p), h => exact ⟨q, h, List.prefix_refl q⟩
  | .stuck .stringEndless, h => simp [Res.logged] at h
  | .stuck .brokenCursor, h => simp [Res.logged] at h

theorem Res.CutTo.bind {α β : Type} {B : Nat} {r r' : Res α} (h : r.CutTo B r') {f : α → State → Res β}
    (hw : ∀ v t, (f v t).Within (Follows t)) (hf : ∀ v s t, Machine.CutTo B s t → (f v t).CutTo B (f v s)) :
    (r.bind f).CutTo B (r'.bind f) := by
  rcases h with ⟨v, s, t, rfl, rfl, h⟩ | ⟨k, s, t, rfl, rfl, h⟩ | ⟨e, rfl, rfl⟩ | ⟨p, rfl, hB, hp⟩
  · exact hf v s t h
  · exact .inr (.inl ⟨k, s, t, rfl, rfl, h⟩)
  · exact .inr (.inr (.inl ⟨e, rfl, rfl⟩))
  · refine .inr (.inr (.inr ⟨p, rfl, hB, fun q hq => ?_⟩))
    obtain ⟨p', h1, h2⟩ := Res.logged_bind hw hq
    exact (hp p' h1).trans h2

theorem readBit_cutTo {B : Nat} {s t : State} (h : CutTo B s t) : (readBit t).CutTo B (readBit s) := by
  obtain ⟨k, rfl, hB⟩ := h
  rcases readBit_cases s with ⟨hc, e⟩ | ⟨b, hc, h0, e⟩ | ⟨b, hc, h0, h1, e⟩ | ⟨b, hc, h1, hn, e⟩ |
    ⟨b, a, src, hc, h1, hn, e⟩ <;> rw [e]
  · exact .inr (.inl ⟨_, _, _, readBit_of_eos hc, rfl, k, rfl, hB⟩)
  · exact .inr (.inr (.inl ⟨_, readBit_of_broken hc h0, rfl⟩))
  · exact .inl ⟨_, _, _, readBit_of_more hc h0 h1, rfl, k, rfl, hB⟩
  · refine .inr (.inr (.inl ⟨_, ?_, rfl⟩))
    rw [readBit_of_last (s := s.cut k) hc h1, refill_setN, refill_of_silent (Source.cut_next_none hn k)]
    rfl
  · cases a with
    | eos =>
      refine .inl ⟨_, _, _, ?_, rfl, k, rfl, by simp; omega⟩
      rw [readBit_of_last (s := s.cut k) hc h1, refill_setN, refill_of_next (Source.cut_next_eos hn k)]
      rfl
    | byte d =>
      cases k with
      | succ k =>
        refine .inl ⟨_, _, _, ?_, rfl, k, rfl, by simp; omega⟩
        rw [readBit_of_last (s := s.cut (k + 1)) hc h1, refill_setN, refill_of_next (Source.cut_next_byte hn k)]
        rfl
      | zero =>
        refine .inr (.inr (.inr ⟨s.ports, ?_, by simpa using hB, fun q hq => ?_⟩))
        · rw [readBit_of_last (s := s.cut 0) hc h1, refill_setN, refill_of_silent (Source.cut_zero_next_none hn)]
          rfl
        · simp only [Res.logged, State.fill_ports, Option.some.injEq] at hq
          exact ⟨_, hq⟩

theorem takeBits_cutTo (B k : Nat) {s t : State} (h : CutTo B s t) : (takeBits k t).CutTo B (takeBits k s) := by
  induction k generalizing s t with
  | zero => exact .inl ⟨[], s, t, rfl, rfl, h⟩
  | succ k ih =>
    have hw : ∀ b : Bool, ∀ t, ((takeBits k t).bind fun bs u => Res.ok (b :: bs) u).Within (Follows t) := fun _ t =>
      follows_commandRel.bind (follows_commandRel.takeBits k t) fun _ u => follows_commandRel.refl u
    exact (readBit_cutTo h).bind hw fun b s t h =>
      (ih h).bind (fun _ u => follows_commandRel.refl u) fun bs s t h => .inl ⟨b :: bs, s, t, rfl, rfl, h⟩

/-! ### RDSTR on the cut source -/

/-- The transactions of the first bytes are the first transactions. -/
theorem stringPulls_append (n : Nat) (c : Byte) (as bs : List Byte) :
    stringPulls n c as <+: stringPulls n c (as ++ bs) := by
  induction as generalizing c with
  | nil => exact List.nil_prefix
  | cons a as ih =>
    obtain ⟨es, he⟩ := ih a
    exact ⟨es, by rw [List.cons_append, stringPulls, stringPulls, ← he]; rfl⟩

theorem length_stringPulls (n : Nat) (c : Byte) (bs : List Byte) : (stringPulls n c bs).length = 2 * bs.length := by
  induction bs generalizing c with
  | nil => rfl
  | cons b bs ih => simp [stringPulls, ih]; omega

/-- A byte-aligned string is delivered as the loop delivers it, the last character aside. -/
theorem stringPulls_prefix_loopEvents (c : Byte) (bs : List Byte) : stringPulls 8 c bs <+: loopEvents c bs := by
  induction bs generalizing c with
  | nil => exact List.nil_prefix
  | cons b bs ih =>
    obtain ⟨es, he⟩ := ih b
    exact ⟨es, by rw [stringPulls, loopEvents, ← he, spliced_eight]; rfl⟩

theorem stringPulls_take (n : Nat) (c : Byte) (bs : List Byte) (k : Nat) :
    stringPulls n c (bs.take k) <+: stringPulls n c bs := by
  conv => rhs; rw [← List.take_append_drop k bs]
  exact stringPulls_append n c _ _

theorem readString_of_broken {s : State} {b : Byte} (h : s.cur = .byte b) (h0 : s.n = 0) :
    readString s = .stuck .brokenCursor := by
  rw [readString_of_byte h, readStringLoop_of_byte h, readChar_of_broken h h0]; rfl

theorem readString_cutTo {B : Nat} {s t : State} (h : CutTo B s t) : (readString t).CutTo B (readString s) := by
  obtain ⟨k, rfl, hB⟩ := h
  rcases s.cur_cases with hc | ⟨c, hc⟩
  · exact .inr (.inl ⟨_, s, s.cut k, readString_of_eos hc, readString_of_eos hc, k, rfl, hB⟩)
  by_cases h0 : s.n = 0
  · exact .inr (.inr (.inl ⟨_, readString_of_broken (s := s.cut k) hc h0, readString_of_broken hc h0⟩))
  have hung : ∀ bs : List Byte, k ≤ bs.length → s.src.cut k = ⟨bs.take k, .silent⟩ →
      (∀ q, (readString s).logged = some q → s.ports ++ stringPulls s.n.val c bs <+: q) →
      (readString (s.cut k)).CutTo B (readString s) := by
    intro bs hk hs hq
    refine .inr (.inr (.inr ⟨s.ports ++ stringPulls s.n.val c (bs.take k), ?_, ?_, fun q h => ?_⟩))
    · rcases readString_cases (s := s.cut k) hc h0 with ⟨h, -⟩ | ⟨h, -⟩ | ⟨-, e⟩ | ⟨_, _, h, -⟩
      · simp [hs] at h
      · simp [hs] at h
      · simpa [hs] using e
      · simp [hs] at h
    · rw [List.length_append, length_stringPulls, List.length_take, Nat.min_eq_left hk]; omega
    · exact ((List.prefix_append_right_inj _).2 (stringPulls_take _ _ _ k)).trans (hq q h)
  have whole : s.src.cut k = s.src → (readString (s.cut k)).CutTo B (readString s) := by
    intro hs
    rw [State.cut_of_src hs]
    rcases readString_cases hc h0 with ⟨-, -, e⟩ | ⟨-, -, e⟩ | ⟨-, e⟩ | ⟨_, _, -, e⟩ <;> rw [e]
    · exact .inl ⟨_, _, _, rfl, rfl, k, (State.cut_of_src (by cases k <;> rfl)).symm, by simp; omega⟩
    · exact .inr (.inl ⟨_, _, _, rfl, rfl, k, (State.cut_of_src (by cases k <;> rfl)).symm, by simp; omega⟩)
    · exact .inr (.inr (.inl ⟨_, rfl, rfl⟩))
    · exact .inr (.inr (.inl ⟨_, rfl, rfl⟩))
  rcases hs : s.src with ⟨bs, en⟩
  by_cases hk : bs.length ≤ k ∧ ∀ stream index, en ≠ .endless stream index
  · refine whole ?_
    rw [hs]
    cases en with
    | eos => rw [Source.cut_eos, if_pos hk.1]
    | silent => rw [Source.cut_silent, List.take_of_length_le hk.1]
    | endless stream index => exact absurd rfl (hk.2 _ _)
  · rcases readString_cases hc h0 with ⟨he, h8, e⟩ | ⟨he, h8, e⟩ | ⟨he, e⟩ | ⟨stream, index, he, e⟩ <;>
      rw [hs] at he <;> simp only at he <;> subst he
    · have hk : ¬ bs.length ≤ k := fun h => hk ⟨h, nofun⟩
      refine hung bs (by omega) (by rw [hs, Source.cut_eos, if_neg hk]) fun q hq => ?_
      rw [e, Res.logged, Option.some.injEq, hs] at hq
      rw [← hq, h8]
      exact (List.prefix_append_right_inj _).2 (stringPulls_prefix_loopEvents c _)
    · have hk : ¬ bs.length ≤ k := fun h => hk ⟨h, nofun⟩
      refine hung bs (by omega) (by rw [hs, Source.cut_eos, if_neg hk]) fun q hq => ?_
      rw [e, Res.logged, Option.some.injEq, hs] at hq
      exact ⟨_, hq⟩
    · have hk : ¬ bs.length ≤ k := fun h => hk ⟨h, nofun⟩
      refine hung bs (by omega) (by rw [hs, Source.cut_silent]) fun q hq => ?_
      rw [e, Res.logged, Option.some.injEq, hs] at hq
      rw [hq]
    · refine hung (bs ++ freeBytes stream index k) (by simp) (by rw [hs, Source.cut_endless]) fun q hq => ?_
      simp [e, Res.logged] at hq

/-- A width that is turned away leaves everything as it was. -/
theorem operation_badWidth {i : Instr} (h : badWidth i) (s : State) : operation i s = .err .invalidWidth s := by
  cases i with
  | rdCharW r =>
    rw [operation, readCharW, if_neg (by rw [charWidthOk_iff]; simp only [badWidth] at h; omega)]; rfl
  | rdIntW r => rw [operation, readIntW, if_neg (by rw [intWidthOk_iff]; simp only [badWidth] at h; omega)]
  | existsQ => exact h.elim
  | isEmpty => exact h.elim
  | rdBit => exact h.elim
  | rdChar => exact h.elim
  | rdShort => exact h.elim
  | rdInt => exact h.elim
  | rdStr => exact h.elim

/-- Every instruction's operation on the cut source. -/
theorem operation_cutTo (i : Instr) {B : Nat} {s t : State} (h : CutTo B s t) :
    (operation i t).CutTo B (operation i s) := by
  rcases instr_kinds i with rfl | rfl | hw | ⟨k, hk⟩ | rfl
  · obtain ⟨k, rfl, hB⟩ := h
    exact .inl ⟨_, _, _, rfl, rfl, k, rfl, hB⟩
  · obtain ⟨k, rfl, hB⟩ := h
    exact .inl ⟨_, _, _, rfl, rfl, k, rfl, hB⟩
  · rw [operation_badWidth hw, operation_badWidth hw]
    exact .inr (.inl ⟨_, _, _, rfl, rfl, h⟩)
  · rw [operation_eq_takeBits hk, operation_eq_takeBits hk]
    exact (takeBits_cutTo B k h).bind (fun _ u => follows_commandRel.refl u) fun bs s t h =>
      .inl ⟨_, s, t, rfl, rfl, h⟩
  · exact (readString_cutTo h).bind (fun _ u => follows_commandRel.refl u) fun _ s t h =>
      .inl ⟨_, s, t, rfl, rfl, h⟩

/-! ### What `abandon` keeps of a command -/

theorem unfinishedLog_respond {r : Res Data} {q : List PortEvent} :
    unfinishedLog (respond r) = .next q ↔ r.logged = some q := by
  cases r with
  | ok d s => simp [respond, unfinishedLog, Res.logged]
  | err d s => simp [respond, unfinishedLog, Res.logged, takeError]
  | stuck f => cases f <;> simp [respond, unfinishedLog, Res.logged]

/-- The first `k` transactions on the cut source are those on the whole one. -/
theorem operation_logged_cut {i : Instr} {s : State} {k : Nat} {p q : List PortEvent}
    (hp : (operation i (s.cut k)).logged = some p) (hq : (operation i s).logged = some q) :
    p.take (s.ports.length + k) = q.take (s.ports.length + k) := by
  rcases operation_cutTo i (s := s) (t := s.cut k) ⟨k, rfl, le_rfl⟩ with
    ⟨v, u, t, e, e', k', rfl, -⟩ | ⟨v, u, t, e, e', k', rfl, -⟩ | ⟨f, e, e'⟩ | ⟨l, e, hl, h⟩ <;> rw [e] at hp
  · rw [e'] at hq
    simp only [Res.logged, State.cut_ports, Option.some.injEq] at hp hq
    rw [← hp, hq]
  · rw [e'] at hq
    simp only [Res.logged, State.cut_ports, Option.some.injEq] at hp hq
    rw [← hp, hq]
  · rw [e', hp, Option.some.injEq] at hq
    rw [hq]
  · simp only [Res.logged, Option.some.injEq] at hp
    subst hp
    obtain ⟨m, rfl⟩ := h q hq
    rw [List.take_append_of_le_length hl]

/-- A command's log on a source that is not endless: only what can cross the ports inside a command, and bytes in source
order. -/
theorem operation_logged {i : Instr} {s : State} (he : ∀ stream index, s.src.ending ≠ .endless stream index)
    {p : List PortEvent} (hp : (operation i s).logged = some p) :
    ∃ es rest, p = s.ports ++ es ∧ (∀ e ∈ es, e.inside) ∧ pulledBytes es ++ rest = s.src.bytes := by
  have hc : CommandRel fun s t => Follows s t ∧ InOrder s t :=
    have a := follows_commandRel
    have b := inOrder_commandRel
    ⟨fun s => ⟨a.refl s, b.refl s⟩, fun h g => ⟨a.trans h.1 g.1, b.trans h.2 g.2⟩, fun s m => ⟨a.setN s m, b.setN s m⟩,
      fun h g => ⟨a.fill h g, b.fill h g⟩, fun s c => ⟨a.charBeat s c, b.charBeat s c⟩⟩
  obtain ⟨t, hf, ho, rfl⟩ : ∃ t, Follows s t ∧ InOrder s t ∧ t.ports = p := by
    have g := hc.operation i s
    match h : operation i s with
    | .ok d t => rw [h] at g hp; exact ⟨t, g.1, g.2, Option.some.inj hp⟩
    | .err k t => rw [h] at g hp; exact ⟨t, g.1, g.2, Option.some.inj hp⟩
    | .stuck (.sourceSilent q) =>
      rw [h] at g hp
      obtain ⟨t, ht, e⟩ := g
      exact ⟨t, ht.1, ht.2, e.trans (Option.some.inj hp)⟩
    | .stuck .stringEndless => rw [h] at hp; simp [Res.logged] at hp
    | .stuck .brokenCursor => rw [h] at hp; simp [Res.logged] at hp
  obtain ⟨es, h1, h2⟩ := hf.ports
  have := (ho he).1
  rw [h1, pulledBytes_append, List.append_assoc] at this
  exact ⟨es, t.src.bytes, h1, h2, List.append_cancel_left this⟩

theorem Source.cut_not_endless (k : Nat) (src : Source) (stream index : Nat) :
    (src.cut k).ending ≠ .endless stream index := by
  rcases src with ⟨bs, _ | _ | _⟩
  · rw [Source.cut_eos]; split <;> simp
  · simp [Source.cut_silent]
  · simp [Source.cut_endless]

theorem State.Inv.cut {s : State} (h : s.Inv) (k : Nat) : (s.cut k).Inv :=
  ⟨h.count_of_byte, h.count_of_eos, h.priming_fresh, h.unbound, h.cur_is_last_answer, h.eos_once, fun h1 h2 h3 => by
    rw [State.cut_src, h.drained h1 h2 h3, Source.cut_eos]; rfl⟩

theorem Res.logged_map {α β : Type} (r : Res α) (f : α → β) : (r.bind fun v u => Res.ok (f v) u).logged = r.logged := by
  rcases r with _ | _ | (_ | _ | _) <;> rfl

theorem takeBits_logged (k : Nat) {s : State} (h : s.Inv) : ∃ p, (takeBits k s).logged = some p := by
  induction k generalizing s with
  | zero => exact ⟨_, rfl⟩
  | succ k ih =>
    have hi := readBit_inv h
    rw [takeBits_succ]
    rcases readBit_cases s with ⟨-, e⟩ | ⟨b, hc, h0, e⟩ | ⟨b, -, -, -, e⟩ | ⟨b, -, -, -, e⟩ | ⟨b, a, src, -, -, -, e⟩ <;>
      rw [e] at hi ⊢
    · exact ⟨_, rfl⟩
    · simpa [h0] using h.count_of_byte b hc
    · rw [Res.bind_ok, Res.logged_map]; exact ih hi
    · exact ⟨_, rfl⟩
    · rw [Res.bind_ok, Res.logged_map]; exact ih hi

/-- On a source that is not endless a command completes or hangs on the source. -/
theorem operation_logged_of_listed (i : Instr) {s : State} (h : s.Inv)
    (he : ∀ stream index, s.src.ending ≠ .endless stream index) : ∃ p, (operation i s).logged = some p := by
  rcases instr_kinds i with rfl | rfl | hw | ⟨k, hk⟩ | rfl
  · exact ⟨_, rfl⟩
  · exact ⟨_, rfl⟩
  · exact ⟨_, by rw [operation_badWidth hw]; rfl⟩
  · rw [operation_eq_takeBits hk, Res.logged_map]
    exact takeBits_logged k h
  · rcases s.cur_cases with hc | ⟨c, hc⟩
    · exact ⟨_, by rw [operation, readString_of_eos hc]; rfl⟩
    · have h0 : s.n ≠ 0 := fun e => by simpa [e] using h.count_of_byte c hc
      rcases readString_cases hc h0 with ⟨-, -, e⟩ | ⟨-, -, e⟩ | ⟨-, e⟩ | ⟨_, _, h, -⟩
      · exact ⟨_, by rw [operation, e]; rfl⟩
      · exact ⟨_, by rw [operation, e]; rfl⟩
      · exact ⟨_, by rw [operation, e]; rfl⟩
      · exact absurd h (he _ _)

theorem pulledBytes_take_prefix (es : List PortEvent) (k : Nat) : pulledBytes (es.take k) <+: pulledBytes es := by
  conv => rhs; rw [← List.take_append_drop k es, pulledBytes_append]
  exact List.prefix_append _ _

theorem pulledBytes_length_le (es : List PortEvent) : (pulledBytes es).length ≤ es.length := by
  induction es with
  | nil => simp [pulledBytes]
  | cons e es ih => rcases e with _ | (_ | _) | _ <;> simp [pulledBytes] <;> omega

/-- What a source has lost when `bs` were taken from its first `k` bytes (R142). -/
theorem Source.skip_taken (src : Source) {k : Nat} {bs : List Byte} (hk : bs.length ≤ k)
    (h : bs <+: (src.cut k).bytes) :
    ((∀ stream index, src.ending ≠ .endless stream index) →
      bs ++ (src.skip bs.length).bytes = src.bytes ∧ (src.skip bs.length).ending = src.ending) ∧
    (∀ stream index, src.ending = .endless stream index → ∃ count,
      bs ++ (src.skip bs.length).bytes = src.bytes ++ freeBytes stream index count ∧
      (src.skip bs.length).ending = .endless stream (index + count) ∧
      (count = 0 ∨ (src.skip bs.length).bytes = [])) := by
  rcases src with ⟨l, en⟩
  refine ⟨fun he => ?_, fun stream index he => ?_⟩
  · have hl : bs <+: l := by
      refine h.trans ?_
      cases en with
      | eos => rw [Source.cut_eos]; split; exact List.prefix_refl _; exact List.take_prefix _ _
      | silent => rw [Source.cut_silent]; exact List.take_prefix _ _
      | endless stream index => exact absurd rfl (he _ _)
    obtain ⟨d, rfl⟩ := hl
    rw [Source.skip_listed he]
    exact ⟨by simp, rfl⟩
  · simp only at he
    subst he
    rw [Source.cut_endless] at h
    have e := List.prefix_iff_eq_take.1 (h.trans (List.take_prefix _ _))
    rw [Source.skip_endless]
    refine ⟨bs.length - l.length, ?_, rfl, ?_⟩
    · by_cases hl : bs.length ≤ l.length
      · rw [List.take_append_of_le_length hl] at e
        obtain ⟨d, rfl⟩ : ∃ d, l = bs ++ d := ⟨l.drop bs.length, by
          conv => lhs; rw [← List.take_append_drop bs.length l, ← e]⟩
        simp [freeBytes]
      · obtain ⟨d, rfl⟩ : ∃ d, k = (bs.length - l.length) + d := ⟨k - (bs.length - l.length), by omega⟩
        rw [List.take_append, List.take_of_length_le (by omega), freeBytes_add,
          List.take_append_of_le_length (by simp), List.take_of_length_le (by simp)] at e
        simpa [List.drop_eq_nil_of_le (show l.length ≤ bs.length by omega)] using e
    · by_cases hl : bs.length ≤ l.length
      · exact .inl (by omega)
      · exact .inr (List.drop_eq_nil_of_le (by omega))

end Sys2Proof.Machine
end

