-- ==== Sys2Proof/Laws/LogFree.lean ====
section
/-! SUPPORT. No operation reads the port log: on a state with another log it does the same and logs the same (R125,
R127: no trace of an earlier command but its effect on the registers). -/

namespace Sys2Proof.Machine

/-- `t` is `s` with the start `p` of its log exchanged for `q`. -/
def Rebased (p q : List PortEvent) (s t : State) : Prop := ∃ es, s.ports = p ++ es ∧ t = s.withPorts (q ++ es)

/-- The same outcome, on states rebased from each other. -/
def Res.Rebased {α : Type} (p q : List PortEvent) : Res α → Res α → Prop
  | .ok v s, .ok w t => v = w ∧ Machine.Rebased p q s t
  | .err k s, .err l t => k = l ∧ Machine.Rebased p q s t
  | .stuck (.sourceSilent a), .stuck (.sourceSilent b) => ∃ es, a = p ++ es ∧ b = q ++ es
  | .stuck .stringEndless, .stuck .stringEndless => True
  | .stuck .brokenCursor, .stuck .brokenCursor => True
  | _, _ => False

section
variable {p q : List PortEvent}

theorem Rebased.self (s : State) (q : List PortEvent) : Rebased s.ports q s (s.withPorts q) :=
  ⟨[], by simp, by simp⟩

theorem Rebased.log {s t : State} (h : Rebased p q s t) (e : PortEvent) : Rebased p q (s.log e) (t.log e) := by
  obtain ⟨es, he, rfl⟩ := h
  exact ⟨es ++ [e], by simp [he], by simp [State.log, State.withPorts]⟩

theorem Rebased.setN {s t : State} (h : Rebased p q s t) (m : Fin 9) : Rebased p q (s.setN m) (t.setN m) := by
  obtain ⟨es, he, rfl⟩ := h
  exact ⟨es, he, rfl⟩

theorem Rebased.fill {s t : State} (h : Rebased p q s t) (a : ByteOrEos) (src : Source) :
    Rebased p q (s.fill a src) (t.fill a src) := by
  obtain ⟨es, he, rfl⟩ := h
  exact ⟨es ++ [.pull a], by simp [he], by cases a <;> simp [State.fill, State.log, State.load, State.withPorts]⟩

theorem Rebased.fields {s t : State} (h : Rebased p q s t) :
    t.cur = s.cur ∧ t.n = s.n ∧ t.bound = s.bound ∧ t.src = s.src := by
  obtain ⟨es, -, rfl⟩ := h
  exact ⟨rfl, rfl, rfl, rfl⟩

theorem Rebased.silent {s t : State} (h : Rebased p q s t) :
    (Res.stuck (α := α) (.sourceSilent s.ports)).Rebased p q (.stuck (.sourceSilent t.ports)) := by
  obtain ⟨es, he, rfl⟩ := h
  exact ⟨es, he, rfl⟩

theorem Res.Rebased.bind {α β : Type} {r r' : Res α} (h : r.Rebased p q r') {f : α → State → Res β}
    (hf : ∀ v s t, Machine.Rebased p q s t → (f v s).Rebased p q (f v t)) : (r.bind f).Rebased p q (r'.bind f) := by
  match r, r', h with
  | .ok v s, .ok _ t, ⟨rfl, h⟩ => exact hf v s t h
  | .err k s, .err _ t, h => exact h
  | .stuck (.sourceSilent _), .stuck (.sourceSilent _), h => exact h
  | .stuck .stringEndless, .stuck .stringEndless, h => exact h
  | .stuck .brokenCursor, .stuck .brokenCursor, h => exact h

theorem readBit_rebased {s t : State} (h : Rebased p q s t) : (readBit s).Rebased p q (readBit t) := by
  obtain ⟨hc, hn, -, hs⟩ := h.fields
  rcases readBit_cases s with ⟨c, e⟩ | ⟨b, c, h0, e⟩ | ⟨b, c, h0, h1, e⟩ | ⟨b, c, h1, hx, e⟩ | ⟨b, a, src, c, h1, hx, e⟩ <;>
    rw [← hc] at c <;> rw [e]
  · rw [readBit_of_eos c]; exact ⟨rfl, h⟩
  · rw [← hn] at h0; rw [readBit_of_broken c h0]; trivial
  · rw [← hn] at h0 h1 ⊢; rw [readBit_of_more c h0 h1]; exact ⟨rfl, h.setN _⟩
  · rw [← hn] at h1; rw [← hs] at hx
    rw [readBit_of_last c h1, refill_setN, refill_of_silent hx]; exact h.silent
  · rw [← hn] at h1; rw [← hs] at hx
    rw [readBit_of_last c h1, refill_setN, refill_of_next hx]; exact ⟨rfl, h.fill a src⟩

theorem takeBits_rebased (k : Nat) {s t : State} (h : Rebased p q s t) : (takeBits k s).Rebased p q (takeBits k t) := by
  induction k generalizing s t with
  | zero => exact ⟨rfl, h⟩
  | succ k ih => exact (readBit_rebased h).bind fun _ _ _ h => (ih h).bind fun _ _ _ h => ⟨rfl, h⟩

theorem readChar_rebased {s t : State} (h : Rebased p q s t) : (readChar s).Rebased p q (readChar t) := by
  rw [readChar_eq_takeBits, readChar_eq_takeBits]
  exact (takeBits_rebased 8 h).bind fun _ _ _ h => ⟨rfl, h⟩

theorem readStringLoop_rebased (fuel : Nat) {s t : State} (h : Rebased p q s t) :
    (readStringLoop fuel s).Rebased p q (readStringLoop fuel t) := by
  induction fuel generalizing s t with
  | zero => trivial
  | succ fuel ih =>
    cases hc : s.cur with
    | eos =>
      rw [readStringLoop_of_eos hc, readStringLoop_of_eos (h.fields.1.trans hc)]
      exact ⟨rfl, h⟩
    | byte b =>
      rw [readStringLoop_of_byte hc, readStringLoop_of_byte (h.fields.1.trans hc)]
      exact (readChar_rebased h).bind fun c _ _ h => ih (h.log _)

theorem readString_rebased {s t : State} (h : Rebased p q s t) : (readString s).Rebased p q (readString t) := by
  cases hc : s.cur with
  | eos =>
    rw [readString_of_eos hc, readString_of_eos (h.fields.1.trans hc)]
    exact ⟨rfl, h⟩
  | byte b =>
    rw [readString_of_byte hc, readString_of_byte (h.fields.1.trans hc), h.fields.2.2.2]
    exact readStringLoop_rebased _ h

/-- Every instruction's operation. -/
theorem operation_rebased (i : Instr) {s t : State} (h : Rebased p q s t) :
    (operation i s).Rebased p q (operation i t) := by
  cases hk : fieldWidth i with
  | some k =>
    rw [operation_eq_takeBits hk, operation_eq_takeBits hk]
    exact (takeBits_rebased k h).bind fun _ _ _ h => ⟨rfl, h⟩
  | none =>
    cases i with
    | existsQ => exact ⟨by rw [h.fields.2.2.1], h⟩
    | isEmpty => exact ⟨by rw [State.isEmpty, State.isEmpty, h.fields.1], h⟩
    | rdStr => exact (readString_rebased h).bind fun _ _ _ h => ⟨rfl, h⟩
    | rdCharW r =>
      have hw : charWidthOk r ≠ true := fun hw => by simp [fieldWidth, hw] at hk
      simp only [operation, readCharW, if_neg hw]
      exact ⟨rfl, h⟩
    | rdIntW r =>
      have hw : intWidthOk r ≠ true := fun hw => by simp [fieldWidth, hw] at hk
      simp only [operation, readIntW, if_neg hw]
      exact ⟨rfl, h⟩
    | rdBit => simp [fieldWidth] at hk
    | rdChar => simp [fieldWidth] at hk
    | rdShort => simp [fieldWidth] at hk
    | rdInt => simp [fieldWidth] at hk
end

/-- Bits that were read, on a state with another log. -/
theorem takeBits_withPorts {k : Nat} {s t : State} {bs : List Bool} (e : takeBits k s = .ok bs t) :
    ∃ es, t.ports = s.ports ++ es ∧ ∀ q, takeBits k (s.withPorts q) = .ok bs (t.withPorts (q ++ es)) := by
  have g := follows_commandRel.takeBits k s
  rw [e] at g
  obtain ⟨es, he, -⟩ := g.ports
  refine ⟨es, he, fun q => ?_⟩
  have r := takeBits_rebased k (Rebased.self s q)
  rw [e] at r
  cases h : takeBits k (s.withPorts q) with
  | ok bs' t' =>
    rw [h] at r
    obtain ⟨rfl, es', h1, rfl⟩ := r
    rw [he] at h1
    rw [List.append_cancel_left h1]
  | err k u => rw [h] at r; exact r.elim
  | stuck f => rw [h] at r; exact r.elim

/-- Every instruction that completes, on a state with another log. -/
theorem exec_withPorts {i : Instr} {s u : State} (h : exec i s = .next u) (q : List PortEvent) :
    ∃ es, u.ports = s.ports ++ es ∧ exec i (s.withPorts q) = .next (u.withPorts (q ++ es)) := by
  have g := operation_rebased i (Rebased.self s q)
  rw [exec_eq_respond] at h ⊢
  cases e : operation i s with
  | ok d v =>
    cases e' : operation i (s.withPorts q) with
    | ok d' v' =>
      rw [e, e'] at g
      obtain ⟨rfl, g⟩ := g
      rw [e, respond, Host.Outcome.next.injEq] at h
      obtain ⟨es, he, ht⟩ := g.log (.beat (okBeat d))
      exact ⟨es, h ▸ he, by rw [respond, ht, h]⟩
    | err k v' => rw [e, e'] at g; exact g.elim
    | stuck f => rw [e, e'] at g; exact g.elim
  | err k v =>
    cases e' : operation i (s.withPorts q) with
    | err k' v' =>
      rw [e, e'] at g
      obtain ⟨rfl, g⟩ := g
      rw [e, respond, takeError, Host.Outcome.next.injEq] at h
      obtain ⟨es, he, ht⟩ := g.log (.beat (errBeat k))
      exact ⟨es, h ▸ he, by rw [respond, takeError, ht, h]⟩
    | ok d' v' => rw [e, e'] at g; exact g.elim
    | stuck f => rw [e, e'] at g; exact g.elim
  | stuck f => rw [e, respond] at h; simp at h

end Sys2Proof.Machine
end

