-- ==== Sys2Proof/Laws/PerInstr.lean ====
section
/-! SUPPORT. The family TableRow: the row of the opcode table each instruction's word selects (R52), and where its width
goes (R51, R53). One lemma per constructor. -/

namespace Sys2Proof.Laws.TableRow

/-- The canonical word of a well-formed instruction selects a row that bears its mnemonic, and no other row; its `r`
field is the width, or 0 where the instruction takes none (R51 to R54). -/
def Statement (i : Instr) : Prop :=
  i.wf = true →
    (opcodeRows.filter fun row => row.selects (encode i)).map OpcodeRow.mnemonic = [i.mnemonic] ∧
    CmdWord.r (encode i) = match i with
      | .rdCharW r => r
      | .rdIntW r => r
      | .existsQ => 0
      | .isEmpty => 0
      | .rdBit => 0
      | .rdChar => 0
      | .rdShort => 0
      | .rdInt => 0
      | .rdStr => 0

theorem existsQ : Statement .existsQ := fun _ => by decide
theorem isEmpty : Statement .isEmpty := fun _ => by decide
theorem rdBit : Statement .rdBit := fun _ => by decide
theorem rdChar : Statement .rdChar := fun _ => by decide
theorem rdShort : Statement .rdShort := fun _ => by decide
theorem rdInt : Statement .rdInt := fun _ => by decide
theorem rdStr : Statement .rdStr := fun _ => by decide

/-- A statement about every width a well-formed instruction can have is checked width by width. -/
theorem of_widths {i : Nat → Instr} (hw : ∀ r, (i r).wf = true → r < 64) (h : ∀ r : Fin 64, Statement (i r.val))
    (r : Nat) : Statement (i r) :=
  fun hr => h ⟨r, hw r hr⟩ hr

theorem rdCharW (r : Nat) : Statement (.rdCharW r) :=
  of_widths (i := .rdCharW) (fun _ h => of_decide_eq_true h) (fun r => by revert r; unfold Statement; decide) r

theorem rdIntW (r : Nat) : Statement (.rdIntW r) :=
  of_widths (i := .rdIntW) (fun _ h => of_decide_eq_true h) (fun r => by revert r; unfold Statement; decide) r

end Sys2Proof.Laws.TableRow
end

