-- ==== Sys2Proof/Tests/Slice0.lean ====
section
/-! SUPPORT. The model's own tests, each of one step or one word, with expected values from the spec (the rule or vector
is named in each comment), and a witness that the hypotheses of each statement can be met. -/

namespace Sys2Proof.Tests

open Sys2Proof Sys2Proof.Machine

/-! ### States -/

/-- A cursor with the `n` low bits of `b` unread, as a source that starts with `b` leaves it, and `bs` still to come. -/
def active (b : Byte) (n : Fin 9) (bs : List Byte) : State :=
  ⟨false, .byte b, n, true, ⟨bs, .eos⟩, [], [.pull (.byte b)], []⟩

/-- Exhausted after a source with no bytes (R17). -/
def exhausted : State := ⟨false, .eos, 0, true, ⟨[], .eos⟩, [], [.pull .eos], []⟩

/-- A failed binding after Priming (R23). -/
def unbound (bs : List Byte) : State := ⟨false, .eos, 0, false, ⟨bs, .eos⟩, [], [], []⟩

theorem active_inv (b : Byte) (n : Fin 9) (bs : List Byte) (h : 1 ≤ n.val) : (active b n bs).Inv :=
  ⟨fun _ _ => h, nofun, nofun, nofun, fun _ _ => rfl, rfl, nofun⟩

theorem exhausted_inv : exhausted.Inv :=
  ⟨nofun, fun _ => rfl, nofun, nofun, fun _ _ => rfl, rfl, fun _ _ _ => rfl⟩

theorem unbound_inv (bs : List Byte) : (unbound bs).Inv :=
  ⟨nofun, fun _ => rfl, nofun, fun _ => ⟨rfl, rfl⟩, nofun, rfl, nofun⟩

/-- An endless source behind a byte. -/
def onEndless (n : Fin 9) : State :=
  ⟨false, .byte 0x41, n, true, ⟨[], .endless 0 0⟩, [], [.pull (.byte 0x41)], []⟩

theorem onEndless_inv (n : Fin 9) (h : 1 ≤ n.val) : (onEndless n).Inv :=
  ⟨fun _ _ => h, nofun, nofun, nofun, fun _ _ => rfl, rfl, nofun⟩

/-- A state with the next thing the outside does. -/
def withInput (s : State) (x : Input) : State := { s with inputs := [x] }

/-- A byte, `bs`, and then silence. -/
def onSilent (n : Fin 9) (bs : List Byte) : State :=
  ⟨false, .byte 0x41, n, true, ⟨bs, .silent⟩, [], [.pull (.byte 0x41)], []⟩

theorem onSilent_inv (n : Fin 9) (bs : List Byte) (h : 1 ≤ n.val) : (onSilent n bs).Inv :=
  ⟨fun _ _ => h, nofun, nofun, nofun, fun _ _ => rfl, rfl, nofun⟩

/-- The invariant does not look at what the outside does next. -/
theorem withInput_inv {s : State} (x : Input) (h : s.Inv) : (withInput s x).Inv :=
  ⟨h.count_of_byte, h.count_of_eos, h.priming_fresh, h.unbound, h.cur_is_last_answer, h.eos_once, h.drained⟩

/-- `cur`, `n`, the bytes left, the pulls since reset, and the latest command's beats as words (R56). -/
def seen (o : Host.Outcome State Fault Refusal) : Option (ByteOrEos × Fin 9 × List Byte × Nat × List BeatWord) :=
  match o with
  | .next t => some (t.cur, t.n, t.src.bytes, transfers t.ports, (beats t.ports).map Beat.encode)
  | .fault _ => none
  | .refused _ => none

/-- The step on a presented command word. -/
def run (w : CmdWord) (s : State) := seen (step (withInput s (.cmd w)))

/-! ### Well-formedness: what the check refuses -/

theorem test_wf_refuses_char_width_64 : (Instr.rdCharW 64).wf = false := by decide
theorem test_wf_refuses_int_width_64 : (Instr.rdIntW 64).wf = false := by decide
/-- R53: 63 is a legal encoding, though no legal width. -/
theorem test_wf_takes_63 : (Instr.rdCharW 63).wf = true ∧ (Instr.rdIntW 63).wf = true := by decide

/-! ### Decoding: the words of R51 and R63, bit by bit -/

theorem test_decode_exists : decode 0b0000_000000 = .instr .existsQ := by decide
theorem test_decode_isempty : decode 0b0001_000000 = .instr .isEmpty := by decide
theorem test_decode_rdbit : decode 0b0010_000000 = .instr .rdBit := by decide
theorem test_decode_rdchar : decode 0b0011_000000 = .instr .rdChar := by decide
theorem test_decode_rdcharw : decode 0b0100_001100 = .instr (.rdCharW 12) := by decide
theorem test_decode_rdshort : decode 0b0101_000000 = .instr .rdShort := by decide
theorem test_decode_rdint : decode 0b0110_000000 = .instr .rdInt := by decide
theorem test_decode_rdintw : decode 0b0111_100000 = .instr (.rdIntW 32) := by decide
theorem test_decode_rdstr : decode 0b1000_000000 = .instr .rdStr := by decide
theorem test_decode_first_reserved : decode 0b1001_000000 = .reserved 9 := by decide
theorem test_decode_last_reserved : decode 0b1111_111111 = .reserved 15 := by decide
/-- R63, R54 (b): an ignored `r`. -/
theorem test_decode_ignores_r : decode 0b0010_111111 = .instr .rdBit := by decide
theorem test_table_word : decodeTableWord 16 0x1C9 = some (.rdIntW 9) ∧ decodeTableWord 10 0x240 = none := by decide
/-- R55's comment and mnemonics. -/
theorem test_parse : parseLine "RDINTW 9 ; length".toList = some (.rdIntW 9) ∧ parseLine "RDBIT".toList = some .rdBit ∧
    parseLine "RDCHARW 64".toList = none := by decide

/-! ### One step, from the vectors of `95_test_vectors.md` -/

/-- V6 -/
theorem test_exists : run 0x03F (active 0x41 8 [0x42]) = some (.byte 0x41, 8, [0x42], 1, [0x400000001]) := by decide
/-- P4 step 1 -/
theorem test_exists_unbound : run 0x000 (unbound [0x41]) = some (.eos, 0, [0x41], 0, [0x400000000]) := by decide
/-- V4 -/
theorem test_isempty_one_bit : run 0x040 (active 0x41 1 []) = some (.byte 0x41, 1, [], 1, [0x400000000]) := by decide
/-- V5 -/
theorem test_isempty_exhausted : run 0x040 exhausted = some (.eos, 0, [], 1, [0x400000001]) := by decide
/-- V12 -/
theorem test_rdbit : run 0x080 (active 0xB4 3 [0x2A]) = some (.byte 0xB4, 2, [0x2A], 1, [0x400000001]) := by decide
/-- V15: the last bit of the stream. -/
theorem test_rdbit_last : run 0x080 (active 0xB5 1 []) = some (.eos, 0, [], 2, [0x400000001]) := by decide
/-- V22 -/
theorem test_rdchar_slow : run 0x0C0 (active 0xB4 5 [0x2A, 0]) = some (.byte 0x2A, 5, [0], 2, [0x4000000A1]) := by decide
/-- V24 -/
theorem test_rdchar_short : run 0x0C0 (active 0xB4 5 []) = some (.eos, 0, [], 2, [0x500000000]) := by decide
/-- V38 -/
theorem test_rdcharw : run 0x110 (active 0xB4 2 [0x2A, 0xC3]) = some (.byte 0xC3, 2, [], 3, [0x400000AB0]) := by decide
/-- V47: WIDTH_ERR beats EOS_ERR. -/
theorem test_rdcharw_width : run 0x111 exhausted = some (.eos, 0, [], 1, [0x600000000]) := by decide
/-- V52 -/
theorem test_rdshort :
    run 0x140 (active 0xB4 5 [0x2A, 0xC3, 0x99]) = some (.byte 0xC3, 5, [0x99], 3, [0x40000A156]) := by decide
/-- V54 -/
theorem test_rdshort_short : run 0x140 (active 0xB4 8 []) = some (.eos, 0, [], 2, [0x500000000]) := by decide
/-- V63 -/
theorem test_rdint :
    run 0x180 (active 0x0D 4 [0xEA, 0xDB, 0xEE, 0xF0, 0x77]) = some (.byte 0xF0, 4, [0x77], 5, [0x4DEADBEEF]) := by
  decide
/-- V65 -/
theorem test_rdint_short : run 0x180 (active 0x0D 4 [0xEA, 0xDB]) = some (.eos, 0, [], 4, [0x500000000]) := by decide
/-- V76 -/
theorem test_rdintw :
    run 0x1DF (active 0xDE 8 [0xAD, 0xBE, 0xEF, 1]) = some (.byte 0xEF, 1, [1], 4, [0x46F56DF77]) := by decide
/-- V78 -/
theorem test_rdintw_width :
    run 0x1E1 (active 0xDE 8 [0xAD]) = some (.byte 0xDE, 8, [0xAD], 1, [0x600000000]) := by decide
/-- V103: RDSTR with an ignored `r`. -/
theorem test_rdstr : run 0x23F (active 0x41 8 [0x42]) = some (.eos, 0, [], 3, [0x41, 0x42, 0x400000000]) := by decide
/-- V95: three void data beats. -/
theorem test_rdstr_midbyte : run 0x200 (active 0x41 1 [0x42, 0x43, 0x44]) =
    some (.eos, 0, [], 5, [0xA1, 0x21, 0xA2, 0x500000000]) := by decide
/-- V102: ILLEGAL_CMD, not EOS_ERR. -/
theorem test_reserved : run 0x2C5 exhausted = some (.eos, 0, [], 1, [0x700000000]) := by decide

/-- V110, V111, V112 -/
theorem test_priming_bound : seen (step (State.atReset true ⟨[0x41, 0x42], .eos⟩)) = some (.byte 0x41, 8, [0x42], 1, []) ∧
    seen (step (State.atReset true ⟨[0], .eos⟩)) = some (.byte 0, 8, [], 1, []) ∧
    seen (step (State.atReset true ⟨[], .eos⟩)) = some (.eos, 0, [], 1, []) :=
  ⟨by decide, by decide, by decide⟩
/-- V113 -/
theorem test_priming_unbound :
    seen (step (State.atReset false ⟨[0x41, 0x42], .eos⟩)) = some (.eos, 0, [0x41, 0x42], 0, []) := by decide
/-- R142: reset after one of RDSHORT's two pulls: that byte is gone, and the next Priming starts on the one after it. -/
theorem test_reset_in_command : ∃ t,
    step (withInput (active 0x41 8 [0x42, 0x43]) (.resetInCmd 0x140 1 ⟨true, none⟩)) = .next t ∧ t.priming = true ∧
      t.src = ⟨[0x43], .eos⟩ ∧ t.past = [[.pull (.byte 0x41), .cmd 0x140, .pull (.byte 0x42)]] := ⟨_, rfl, by decide⟩
/-- V95's bytes with silence in place of the end: the pulls and data beats stand in the log of the hang (R31, R150). -/
theorem test_rdstr_silent : exec .rdStr (onSilent 1 [0x42, 0x43]) = .fault (.sourceSilent [.pull (.byte 0x41),
    .pull (.byte 0x42), .beat ⟨false, .ok, 0xA1⟩, .pull (.byte 0x43), .beat ⟨false, .ok, 0x21⟩]) := rfl
/-- R8, on V22's cursor: 5 bits of 0xB4, then the 8 of 0x2A. -/
theorem test_remaining : (active 0xB4 5 [0x2A]).remainingLength = .finite 13 ∧
    (active 0xB4 5 [0x2A]).firstBits 9 = [true, false, true, false, false, false, false, true, false] := by decide
/-- Entry 4: a presented word is the first command after reset. -/
theorem test_fetch_word : seen (step (State.reset.withFetchWord 16 0x040)) = some (.eos, 0, [], 1, [0x400000001]) := by
  decide
/-- R59: void data beats before an error, and a whole string. -/
theorem test_result : resultOf [⟨false, .ok, 0x0A⟩, ⟨true, .eosErr, 0⟩] [] = some (.error .endOfStream) ∧
    resultOf [⟨false, .ok, 0x41⟩, ⟨true, .ok, 0⟩] [] = some (.chars [0x41]) := by decide

/-! ### Witnesses: states and operands that meet the hypotheses of each statement, clause by clause -/

theorem witness_DecodeOfEncodeIsTheInstruction : (Instr.rdCharW 63).wf = true ∧ (Instr.rdIntW 0).wf = true := by decide
theorem witness_EncodeOfDecodeIsTheCanonicalWord :
    decode 0x1FF = .instr (.rdIntW 63) ∧ decode 0x23F = .instr .rdStr := by decide
theorem witness_CommandTextRoundTrip : (Instr.rdIntW 63).wf = true ∧ Instr.rdStr.wf = true := by decide

/-- Both inputs. -/
theorem witness_ResetEntersPriming : ∀ x ∈ [Input.reset ⟨false, none⟩, Input.resetInPriming ⟨false, none⟩], ∃ s : State,
    s.priming = false ∧ (s.inputs = [Input.reset ⟨false, none⟩] ∨ s.inputs = [Input.resetInPriming ⟨false, none⟩]) ∧
      s.inputs = [x] := by
  intro x hx
  refine ⟨withInput exhausted x, rfl, ?_, rfl⟩
  simp only [List.mem_cons, List.not_mem_nil, or_false] at hx
  rcases hx with rfl | rfl
  · exact .inl rfl
  · exact .inr rfl
theorem witness_ResetCutsPrimingShort : ∃ (s : State) (p : ResetPulse), s.priming = true ∧ s.inputs = [Input.resetInPriming p] :=
  ⟨withInput State.reset (.resetInPriming ⟨true, some ⟨[1], .eos⟩⟩), ⟨true, some ⟨[1], .eos⟩⟩, rfl, rfl⟩
/-- Its three clauses: no source, a byte, EOS. -/
theorem witness_PrimingOutcomes :
    (∃ s : State, s.priming = true ∧ s.primingRuns = true ∧ s.bound = false) ∧
    (∃ (s : State) (src : Source), s.priming = true ∧ s.primingRuns = true ∧ s.bound = true ∧
      s.src.next = some (.byte 0, src)) ∧
    (∃ (s : State) (src : Source), s.priming = true ∧ s.primingRuns = true ∧ s.bound = true ∧
      s.src.next = some (.eos, src)) :=
  ⟨⟨State.atReset false ⟨[0], .eos⟩, rfl, rfl, rfl⟩, ⟨State.atReset true ⟨[0], .eos⟩, _, rfl, rfl, rfl, rfl⟩,
    ⟨State.reset, _, rfl, rfl, rfl, rfl⟩⟩
theorem witness_SilentSourceHangsPriming : ∃ s : State,
    s.priming = true ∧ s.primingRuns = true ∧ s.bound = true ∧ s.src.next = none :=
  ⟨State.atReset true ⟨[], .silent⟩, rfl, rfl, rfl, rfl⟩
theorem witness_StepRunsTheDecodedInstruction : ∃ s : State,
    s.priming = false ∧ s.inputs = [.cmd 0x1FF] ∧ decode 0x1FF = .instr (.rdIntW 63) :=
  ⟨withInput exhausted (.cmd 0x1FF), rfl, rfl, rfl⟩
/-- The first and the last reserved word. -/
theorem witness_ReservedOpcodeAnswersIllegalCommand : ∀ w ∈ [(0x240 : CmdWord), 0x3FF], ∃ s : State,
    s.priming = false ∧ s.inputs = [.cmd w] ∧ 9 ≤ (w.extractLsb' 6 4).toNat := by
  intro w hw
  refine ⟨withInput exhausted (.cmd w), rfl, rfl, ?_⟩
  revert w
  decide
theorem witness_IdleBlockStays : exhausted.priming = false ∧ exhausted.inputs = [] := by decide
/-- A command that completes, cut before its first pull, after it and past its end; one that hangs; RDSTR on an endless
source; another source attached, and the endless one kept. -/
theorem witness_ResetInTheMiddleOfACommand :
    (∀ events ∈ [0, 1, 9], ∃ s t u : State, s.priming = false ∧ s.Inv ∧
      s.inputs = [Input.resetInCmd 0x200 events ⟨true, none⟩] ∧ step s = .next t ∧
      runWord 0x200 { s with inputs := [], ports := s.ports ++ [.cmd 0x200] } = .next u ∧
      ∀ stream index, s.src.ending ≠ .endless stream index) ∧
    (∃ (s t : State) (q : List PortEvent), s.priming = false ∧ s.Inv ∧
      s.inputs = [Input.resetInCmd 0x140 1 ⟨true, none⟩] ∧ step s = .next t ∧
      runWord 0x140 { s with inputs := [], ports := s.ports ++ [.cmd 0x140] } = .fault (.sourceSilent q)) ∧
    (∃ s t : State, s.priming = false ∧ s.Inv ∧ s.inputs = [Input.resetInCmd 0x200 1 ⟨false, none⟩] ∧ step s = .next t ∧
      decode 0x200 = .instr .rdStr ∧ s.cur = .byte 0x41 ∧ s.n ≠ 0 ∧ s.src.ending = .endless 0 0) ∧
    (∃ s t : State, s.priming = false ∧ s.Inv ∧
      s.inputs = [Input.resetInCmd 0x200 1 ⟨false, some ⟨[], .silent⟩⟩] ∧ step s = .next t) := by
  refine ⟨fun events he => ?_,
    ⟨withInput (onSilent 8 [2]) (.resetInCmd 0x140 1 ⟨true, none⟩), _, _, rfl,
      withInput_inv _ (onSilent_inv _ _ (by decide)), rfl, rfl, rfl⟩,
    ⟨withInput (onEndless 8) (.resetInCmd 0x200 1 ⟨false, none⟩), _, rfl, withInput_inv _ (onEndless_inv _ (by decide)),
      rfl, rfl, rfl, rfl, nofun, rfl⟩,
    ⟨withInput (onEndless 8) (.resetInCmd 0x200 1 ⟨false, some ⟨[], .silent⟩⟩), _, rfl,
      withInput_inv _ (onEndless_inv _ (by decide)), rfl, rfl⟩⟩
  refine ⟨withInput (active 0x41 8 [0x42]) (.resetInCmd 0x200 events ⟨true, none⟩), ?_⟩
  simp only [List.mem_cons, List.not_mem_nil, or_false] at he
  rcases he with rfl | rfl | rfl
  · exact ⟨_, _, rfl, withInput_inv _ (active_inv _ _ _ (by decide)), rfl, rfl, rfl, nofun⟩
  · exact ⟨_, _, rfl, withInput_inv _ (active_inv _ _ _ (by decide)), rfl, rfl, rfl, nofun⟩
  · exact ⟨_, _, rfl, withInput_inv _ (active_inv _ _ _ (by decide)), rfl, rfl, rfl, nofun⟩
theorem witness_PresentedWordRunsNext :
    exhausted.priming = false ∧ decodeTableWord 16 0x1FF = some (.rdIntW 63) := by decide

/-- Its four clauses. -/
theorem witness_PullFollowsTheSource :
    (active 0 8 [1]).src.bytes = [1] ∧ (exhausted.src.bytes = [] ∧ exhausted.src.ending = .eos) ∧
    ((onSilent 1 []).src.bytes = [] ∧ (onSilent 1 []).src.ending = .silent) ∧
    ((onEndless 1).src.bytes = [] ∧ (onEndless 1).src.ending = .endless 0 0) := by decide
theorem witness_RefillLoadsTheAnswer :
    exhausted.src.next = some (.eos, ⟨[], .eos⟩) ∧ (active 0 8 [0xFF]).src.next = some (.byte 0xFF, ⟨[], .eos⟩) := by
  decide
/-- A source that ends and one that never does. -/
theorem witness_BytesArePulledInSourceOrder :
    (∃ s t : State, exec .rdShort s = .next t ∧ ∀ stream index, s.src.ending ≠ .endless stream index) ∧
    (∃ s t : State, exec .rdShort s = .next t ∧ s.src.ending = .endless 0 0) :=
  ⟨⟨active 0x41 1 [0x42, 0x43], _, rfl, nofun⟩, ⟨onEndless 1, _, rfl, rfl⟩⟩
/-- Every width at its bounds, every status, and RDSTR. -/
theorem witness_PullCounts :
    (∃ s t : State, s.Inv ∧ expectedPulls (.rdIntW 32) s.n.val = some 4 ∧ exec (.rdIntW 32) s = .next t ∧
      t.finalBeat = some ⟨true, .ok, 0x82848688⟩) ∧
    (∃ s t : State, s.Inv ∧ expectedPulls .rdShort s.n.val = some 2 ∧ exec .rdShort s = .next t ∧
      t.finalBeat = some ⟨true, .eosErr, 0⟩) ∧
    (∃ s t : State, s.Inv ∧ expectedPulls (.rdCharW 17) s.n.val = some 2 ∧ exec (.rdCharW 17) s = .next t ∧
      t.finalBeat = some ⟨true, .widthErr, 0⟩) ∧
    (∃ s t : State, s.Inv ∧ exec .rdStr s = .next t ∧ t.finalBeat = some ⟨true, .ok, 0⟩) :=
  ⟨⟨active 0x41 7 [0x42, 0x43, 0x44, 0x45], _, active_inv _ _ _ (by decide), rfl, rfl, rfl⟩,
    ⟨active 0x41 8 [], _, active_inv _ _ _ (by decide), rfl, rfl, rfl⟩,
    ⟨active 0x41 8 [], _, active_inv _ _ _ (by decide), rfl, rfl, rfl⟩,
    ⟨active 0x41 8 [0x42], _, active_inv _ _ _ (by decide), rfl, rfl⟩⟩
/-- A byte buffered, Exhausted, and a failed binding. -/
theorem witness_LookaheadIsOneByte :
    (∃ s : State, s.Inv ∧ s.priming = false ∧ s.cur = .byte 0x41) ∧
    (∃ s : State, s.Inv ∧ s.priming = false ∧ s.bound = true ∧ s.cur = .eos) ∧
    (∃ s : State, s.Inv ∧ s.priming = false ∧ s.bound = false) :=
  ⟨⟨active 0x41 1 [], active_inv _ _ _ (by decide), rfl, rfl⟩, ⟨exhausted, exhausted_inv, rfl, rfl, rfl⟩,
    ⟨unbound [], unbound_inv _, rfl, rfl⟩⟩

/-- The words with the first and the last `r` of the opcodes 0 to 3. -/
theorem witness_opcode_words : (∀ w ∈ [(0x000 : CmdWord), 0x03F], w.extractLsb' 6 4 = 0) ∧
    (∀ w ∈ [(0x040 : CmdWord), 0x07F], w.extractLsb' 6 4 = 1) ∧
    (∀ w ∈ [(0x080 : CmdWord), 0x0BF], w.extractLsb' 6 4 = 2) ∧
    (∀ w ∈ [(0x0C0 : CmdWord), 0x0FF], w.extractLsb' 6 4 = 3) := by decide
/-- Its two sides: an empty cursor, and a source that never ends behind the last bit. -/
theorem witness_IsEmptyAnswersWhetherABitIsLeft :
    (∃ s : State, s.Inv ∧ s.cur = .eos ∧ s.remainingLength = .finite 0) ∧
    (∃ s : State, s.Inv ∧ s.cur ≠ .eos ∧ s.remainingLength = .finite 1) ∧
    (∃ s : State, s.Inv ∧ s.cur ≠ .eos ∧ s.remainingLength = .infinite) :=
  ⟨⟨unbound [1], unbound_inv _, rfl, rfl⟩, ⟨active 1 1 [], active_inv _ _ _ (by decide), nofun, rfl⟩,
    ⟨onEndless 1, onEndless_inv _ (by decide), nofun, rfl⟩⟩
/-- Its four clauses, the counts at their bounds. -/
theorem witness_RdBitResult :
    exhausted.cur = .eos ∧ ((active 5 2 []).cur = .byte 5 ∧ 2 ≤ (active 5 2 []).n.val) ∧
    ((active 5 8 []).cur = .byte 5 ∧ 2 ≤ (active 5 8 []).n.val) ∧
    ((active 5 1 [6]).cur = .byte 5 ∧ (active 5 1 [6]).n = 1 ∧
      (active 5 1 [6]).src.next = some (.byte 6, ⟨[], .eos⟩)) ∧
    ((active 5 1 []).cur = .byte 5 ∧ (active 5 1 []).n = 1 ∧ (active 5 1 []).src.next = some (.eos, ⟨[], .eos⟩)) :=
  ⟨by decide, by decide, by decide, by decide, by decide⟩
/-- Its five clauses, the counts at their bounds. -/
theorem witness_RdCharResult :
    exhausted.cur = .eos ∧
    ((active 5 8 [6]).cur = .byte 5 ∧ (active 5 8 [6]).n = 8 ∧
      (active 5 8 [6]).src.next = some (.byte 6, ⟨[], .eos⟩)) ∧
    ((active 5 8 []).cur = .byte 5 ∧ (active 5 8 []).n = 8 ∧ (active 5 8 []).src.next = some (.eos, ⟨[], .eos⟩)) ∧
    (∀ n ∈ [(1 : Fin 9), 7], (active 5 n [6]).cur = .byte 5 ∧ 1 ≤ (active 5 n [6]).n.val ∧ (active 5 n [6]).n.val ≤ 7 ∧
      (active 5 n [6]).src.next = some (.byte 6, ⟨[], .eos⟩)) ∧
    (∀ n ∈ [(1 : Fin 9), 7], (active 5 n []).cur = .byte 5 ∧ 1 ≤ (active 5 n []).n.val ∧ (active 5 n []).n.val ≤ 7 ∧
      (active 5 n []).src.next = some (.eos, ⟨[], .eos⟩)) :=
  ⟨by decide, by decide, by decide, by decide, by decide⟩
/-- Its clauses at the bounds of the width. -/
theorem witness_RdCharWResult : (∀ r ∈ [0, 63], r < 64) ∧ (∀ w ∈ [(0x100 : CmdWord), 0x13F], w.extractLsb' 6 4 = 4) ∧
    (∀ r ∈ [0, 17, 63], r < 1 ∨ 16 < r) ∧ (∀ r ∈ [1, 16], 1 ≤ r ∧ r ≤ 16) := by decide
theorem witness_RdIntWResult : (∀ r ∈ [0, 63], r < 64) ∧ (∀ w ∈ [(0x1C0 : CmdWord), 0x1FF], w.extractLsb' 6 4 = 7) ∧
    (∀ r ∈ [0, 33, 63], r < 1 ∨ 32 < r) ∧ (∀ r ∈ [1, 32], 1 ≤ r ∧ r ≤ 32) := by decide
/-- The words, the two errors, the success, and the two aligned cases. -/
theorem witness_RdShortIsBigEndian :
    (∀ w ∈ [(0x140 : CmdWord), 0x17F], w.extractLsb' 6 4 = 5) ∧
    (∃ t, readChar exhausted = .err .endOfStream t) ∧
    (∃ t u, readChar (active 1 8 []) = .ok 1 t ∧ readChar t = .err .endOfStream u) ∧
    (∃ t u, readChar (active 1 8 [2]) = .ok 1 t ∧ readChar t = .ok 2 u) ∧
    ((active 1 8 [2, 3]).cur = .byte 1 ∧ (active 1 8 [2, 3]).n = 8 ∧ (active 1 8 [2, 3]).src.bytes = [2, 3]) ∧
    ((active 1 8 [2]).cur = .byte 1 ∧ (active 1 8 [2]).n = 8 ∧ (active 1 8 [2]).src = ⟨[2], .eos⟩) :=
  ⟨by decide, ⟨_, rfl⟩, ⟨_, _, rfl, rfl⟩, ⟨_, _, rfl, rfl⟩, by decide, by decide⟩
/-- The words, the four errors, the success, and the two aligned cases. -/
theorem witness_RdIntIsBigEndian :
    (∀ w ∈ [(0x180 : CmdWord), 0x1BF], w.extractLsb' 6 4 = 6) ∧
    (∃ t, readChar exhausted = .err .endOfStream t) ∧
    (∃ t u, readChar (active 1 8 []) = .ok 1 t ∧ readChar t = .err .endOfStream u) ∧
    (∃ t u v, readChar (active 1 8 [2]) = .ok 1 t ∧ readChar t = .ok 2 u ∧ readChar u = .err .endOfStream v) ∧
    (∃ t u v x, readChar (active 1 8 [2, 3]) = .ok 1 t ∧ readChar t = .ok 2 u ∧ readChar u = .ok 3 v ∧
      readChar v = .err .endOfStream x) ∧
    (∃ t u v x, readChar (active 1 8 [2, 3, 4]) = .ok 1 t ∧ readChar t = .ok 2 u ∧ readChar u = .ok 3 v ∧
      readChar v = .ok 4 x) ∧
    ((active 1 8 [2, 3, 4, 5]).cur = .byte 1 ∧ (active 1 8 [2, 3, 4, 5]).n = 8 ∧
      (active 1 8 [2, 3, 4, 5]).src.bytes = [2, 3, 4, 5]) ∧
    ((active 1 8 [2, 3, 4]).cur = .byte 1 ∧ (active 1 8 [2, 3, 4]).n = 8 ∧
      (active 1 8 [2, 3, 4]).src = ⟨[2, 3, 4], .eos⟩) :=
  ⟨by decide, ⟨_, rfl⟩, ⟨_, _, rfl, rfl⟩, ⟨_, _, _, rfl, rfl, rfl⟩, ⟨_, _, _, _, rfl, rfl, rfl, rfl⟩,
    ⟨_, _, _, _, rfl, rfl, rfl, rfl⟩, by decide, by decide⟩
/-- Exactly enough bits, as many as asked for on a source that never ends, one too few, and none. -/
theorem witness_FieldExtractionLaw :
    (∃ s : State, fieldWidth (.rdIntW 32) = some 32 ∧ s.Inv ∧ s.src.answers = true ∧ s.remainingLength = .finite 32) ∧
    (∃ s : State, fieldWidth (.rdIntW 32) = some 32 ∧ s.Inv ∧ s.src.answers = true ∧
      s.remainingLength.atLeast 32 = true ∧ s.remainingLength = .infinite) ∧
    (∃ s : State, fieldWidth (.rdCharW 16) = some 16 ∧ s.Inv ∧ s.priming = false ∧ s.src.answers = true ∧
      s.remainingLength.atLeast 16 = false ∧ s.remainingLength = .finite 15) ∧
    (∃ s : State, fieldWidth .rdBit = some 1 ∧ s.Inv ∧ s.priming = false ∧ s.src.answers = true ∧
      s.remainingLength.atLeast 1 = false ∧ s.remainingLength = .finite 0) :=
  ⟨⟨active 1 8 [2, 3, 4], rfl, active_inv _ _ _ (by decide), rfl, rfl⟩,
    ⟨onEndless 1, rfl, onEndless_inv _ (by decide), rfl, rfl, rfl⟩,
    ⟨active 1 7 [2], rfl, active_inv _ _ _ (by decide), rfl, rfl, rfl, rfl⟩,
    ⟨exhausted, rfl, exhausted_inv, rfl, rfl, rfl, rfl⟩⟩
/-- `r` at its bounds. -/
theorem witness_ReadsOfOneWidthAgree : ∀ r ∈ [1, 16], 1 ≤ r ∧ r ≤ 16 := by decide
/-- Exactly enough bits, and a source that never ends. -/
theorem witness_TwoReadsAreOneWiderRead : ∀ l ∈ [StreamLength.finite 32, .infinite], ∃ s : State,
    1 ≤ 1 ∧ 1 ≤ 31 ∧ 1 + 31 ≤ 32 ∧ s.Inv ∧ s.src.answers = true ∧ s.remainingLength.atLeast (1 + 31) = true ∧
      s.remainingLength = l := by
  intro l hl
  simp only [List.mem_cons, List.not_mem_nil, or_false] at hl
  rcases hl with rfl | rfl
  · exact ⟨active 1 8 [2, 3, 4], by decide, by decide, by decide, active_inv _ _ _ (by decide), rfl, rfl, rfl⟩
  · exact ⟨onEndless 8, by decide, by decide, by decide, onEndless_inv _ (by decide), rfl, rfl, rfl⟩
theorem witness_ResultFitsItsWidth : ∃ s t : State, fieldWidth .rdBit = some 1 ∧ exec .rdBit s = .next t ∧
    t.finalBeat = some ⟨true, .ok, 1⟩ := ⟨active 1 1 [], _, rfl, rfl, rfl⟩
/-- The first and the last bit of a byte, and the first read after the last bit. -/
theorem witness_BitReadsReproduceTheStream :
    (∃ s : State, step (State.atReset true ⟨[0xB4], .eos⟩) = .next s) ∧ [(0xB4 : Byte)][0]? = some 0xB4 ∧
    (∀ j ∈ [0, 7], j < 8) ∧ 8 * [(0xB4 : Byte)].length ≤ 8 := ⟨⟨_, rfl⟩, by decide, by decide, by decide⟩
/-- Both widths at the bounds, a whole last group and a short one, and no bit left. -/
theorem witness_CharReadsGroupTheStream :
    (∃ s : State, step (State.atReset true ⟨[0xB4, 0x2A], .eos⟩) = .next s) ∧ (∀ r ∈ [1, 16], 1 ≤ r ∧ r ≤ 16) ∧
    16 * 0 + 16 ≤ 8 * [(0xB4 : Byte), 0x2A].length ∧
    (16 * 1 ≤ 8 * [(0xB4 : Byte), 0x2A].length ∧ 8 * [(0xB4 : Byte), 0x2A].length < 16 * 1 + 16) :=
  ⟨⟨_, rfl⟩, by decide, by decide, by decide⟩

theorem witness_AlignedRdStrDeliversEveryByte :
    (active 0 8 []).cur = .byte 0 ∧ (active 0 8 []).n = 8 ∧ (active 0 8 []).src.ending = .eos := by decide
theorem witness_MidByteRdStrFails : ∀ n ∈ [(1 : Fin 9), 7],
    (active 5 n [6]).cur = .byte 5 ∧ 1 ≤ (active 5 n [6]).n.val ∧ (active 5 n [6]).n.val ≤ 7 ∧
      (active 5 n [6]).src.ending = .eos := by decide
theorem witness_EmptyRdStrFails : exhausted.cur = .eos ∧ (unbound [1]).cur = .eos := by decide
theorem witness_RdStrSucceedsExactlyWhenAligned :
    (∃ s : State, s.Inv ∧ s.src.finite = true ∧ s.n = 8) ∧ (∃ s : State, s.Inv ∧ s.src.finite = true ∧ s.n = 7) :=
  ⟨⟨active 0 8 [], active_inv _ _ _ (by decide), rfl, rfl⟩, ⟨active 0 7 [], active_inv _ _ _ (by decide), rfl, rfl⟩⟩
theorem witness_RdStrNeverCompletesOnAnEndlessSource : ∀ n ∈ [(1 : Fin 9), 8],
    (onEndless n).Inv ∧ (onEndless n).cur ≠ .eos ∧ (onEndless n).src.ending = .endless 0 0 := by
  intro n hn
  exact ⟨onEndless_inv n (by revert n; decide), nofun, rfl⟩

/-- Its three clauses, the widths at their bounds. -/
theorem witness_BadWidthAnswersWidthError :
    (∀ r ∈ [0, 17, 63], r = 0 ∨ 17 ≤ r) ∧ (∀ r ∈ [0, 33, 63], r = 0 ∨ 33 ≤ r) ∧
    (∃ t, exec (.rdCharW 17) exhausted = .next t ∧ t.finalBeat = some ⟨true, .widthErr, 0⟩) ∧
    (∃ t, exec (.rdIntW 33) exhausted = .next t ∧ t.finalBeat = some ⟨true, .widthErr, 0⟩) :=
  ⟨by decide, by decide, ⟨_, rfl, rfl⟩, ⟨_, rfl, rfl⟩⟩
/-- A source that ends, under RDSTR, and one that never does, under the widest read. -/
theorem witness_StatusOfEveryCommand :
    (∃ s : State, s.Inv ∧ s.src.answers = true ∧ (decode 0x200 = .instr .rdStr → s.src.finite = true)) ∧
    (∃ s : State, s.Inv ∧ s.src.answers = true ∧ s.src.finite = false ∧
      (decode 0x1E0 = .instr .rdStr → s.src.finite = true)) :=
  ⟨⟨active 0 1 [], active_inv _ _ _ (by decide), rfl, fun _ => rfl⟩,
    ⟨onEndless 8, onEndless_inv _ (by decide), rfl, rfl, by decide⟩⟩
/-- On an empty cursor, and with bits left that are too few. -/
theorem witness_EosErrorLeavesNothing :
    (∃ s t : State, s.Inv ∧ s.cur = .eos ∧ exec .rdStr s = .next t ∧ t.finalBeat = some ⟨true, .eosErr, 0⟩) ∧
    (∃ s t : State, s.Inv ∧ s.cur ≠ .eos ∧ exec .rdInt s = .next t ∧ t.finalBeat = some ⟨true, .eosErr, 0⟩) :=
  ⟨⟨exhausted, _, exhausted_inv, rfl, rfl, rfl⟩, ⟨active 1 7 [2, 3, 4], _, active_inv _ _ _ (by decide), nofun, rfl, rfl⟩⟩
/-- Both errors, and a next command. -/
theorem witness_WidthAndIllegalErrorsChangeNothing :
    (∃ t, runWord 0x1E1 (active 1 8 []) = .next t ∧ t.finalBeat = some ⟨true, .widthErr, 0⟩) ∧
    (∃ t, runWord 0x240 (active 1 8 []) = .next t ∧ t.finalBeat = some ⟨true, .illegalCmd, 0⟩) ∧
    (∃ u, runWord 0x200 (active 1 8 []) = .next u) :=
  ⟨⟨_, rfl, rfl⟩, ⟨_, rfl, rfl⟩, ⟨_, rfl⟩⟩
theorem witness_ExhaustedCursorAnswersEveryCommand : exhausted.cur = .eos ∧ (unbound [1]).cur = .eos := by decide

theorem witness_ResponseEndsWithOneFinalBeat : (∃ t, exec .rdStr (active 0x41 1 [0x42]) = .next t) ∧
    ∃ t, exec .rdInt (active 0x41 1 [0x42]) = .next t := ⟨⟨_, rfl⟩, ⟨_, rfl⟩⟩
/-- No pull, and a pull that changes the buffer. -/
theorem witness_InstructionFrame :
    (∃ s t : State, exec .rdBit s = .next t ∧ transfers t.ports = transfers s.ports) ∧
    (∃ s t : State, exec .rdBit s = .next t ∧ t.cur ≠ s.cur) :=
  ⟨⟨active 1 2 [], _, rfl, rfl⟩, ⟨active 1 1 [], _, rfl, nofun⟩⟩
theorem witness_OnlyResetRebindsOrRevives : ∃ s t : State,
    s.priming = false ∧ s.noResetNext = true ∧ step s = .next t ∧ s.cur = .eos :=
  ⟨withInput exhausted (.cmd 0x200), _, rfl, rfl, rfl, rfl⟩
/-- Its clauses: a reserved word, a field, a string, a query, a bad width, an empty cursor, and too few bits. -/
theorem witness_StreamPosition :
    (∃ s t : State, decode 0x240 = .reserved 9 ∧ runWord 0x240 s = .next t) ∧
    (∃ s t : State, s.Inv ∧ fieldWidth (.rdIntW 32) = some 32 ∧ exec (.rdIntW 32) s = .next t ∧
      t.finalBeat = some ⟨true, .ok, 0x01020304⟩) ∧
    (∃ s t : State, s.Inv ∧ exec .rdStr s = .next t ∧ t.finalBeat = some ⟨true, .ok, 0⟩) ∧
    (∃ s t : State, s.Inv ∧ fieldWidth .isEmpty = none ∧ exec .isEmpty s = .next t ∧ t.finalBeat = some ⟨true, .ok, 0⟩) ∧
    (∃ s t : State, s.Inv ∧ exec (.rdCharW 0) s = .next t ∧ t.finalBeat = some ⟨true, .widthErr, 0⟩) ∧
    (∃ s t : State, s.Inv ∧ s.cur = .eos ∧ exec .rdChar s = .next t ∧ t.finalBeat = some ⟨true, .eosErr, 0⟩) ∧
    (∃ s t : State, s.Inv ∧ exec .rdStr s = .next t ∧ t.finalBeat = some ⟨true, .eosErr, 0⟩) :=
  ⟨⟨exhausted, _, rfl, rfl⟩, ⟨active 1 8 [2, 3, 4], _, active_inv _ _ _ (by decide), rfl, rfl, rfl⟩,
    ⟨active 1 8 [2], _, active_inv _ _ _ (by decide), rfl, rfl⟩,
    ⟨active 1 8 [2], _, active_inv _ _ _ (by decide), rfl, rfl, rfl⟩,
    ⟨active 1 8 [2], _, active_inv _ _ _ (by decide), rfl, rfl⟩,
    ⟨exhausted, _, exhausted_inv, rfl, rfl, rfl⟩,
    ⟨active 1 7 [2], _, active_inv _ _ _ (by decide), rfl, rfl⟩⟩
theorem witness_StepKeepsTheInvariant : ∃ s t : State, s.Inv ∧ step s = .next t :=
  ⟨active 1 1 [], _, active_inv _ _ _ (by decide), rfl⟩
theorem witness_NothingIsRefused : (active 1 1 []).Inv := active_inv _ _ _ (by decide)
theorem witness_FiniteSourceNeverHangs : ∃ s : State, s.Inv ∧ s.src.finite = true :=
  ⟨exhausted, exhausted_inv, rfl⟩
theorem witness_AnsweringSourceCompletesEveryRead : ∃ s : State,
    s.Inv ∧ s.src.answers = true ∧ Instr.rdInt ≠ .rdStr := ⟨onEndless 8, onEndless_inv _ (by decide), rfl, nofun⟩
/-- Its clauses, with and without bytes before the silence: the narrowest read that hangs and the widest that does not. -/
theorem witness_SilentSourceHangsTheRead :
    (∀ bs ∈ [([] : List Byte), [0x42]], (onSilent 8 bs).cur = .byte 0x41 ∧ (onSilent 8 bs).n ≠ 0 ∧
      (onSilent 8 bs).src.ending = .silent) ∧
    (fieldWidth .rdShort = some 16 ∧ (onSilent 8 [0x42]).n.val + 8 * (onSilent 8 [0x42]).src.bytes.length ≤ 16) ∧
    (fieldWidth (.rdCharW 15) = some 15 ∧ 15 < (onSilent 8 [0x42]).n.val + 8 * (onSilent 8 [0x42]).src.bytes.length) ∧
    (fieldWidth .rdBit = some 1 ∧ (onSilent 1 []).n.val + 8 * (onSilent 1 []).src.bytes.length ≤ 1) := by decide
/-- Its clauses: empty, a byte, Priming. -/
theorem witness_RegisterImage :
    (exhausted.cur = .eos ∧ exhausted.priming = false) ∧ ((active 0xB4 8 []).cur = .byte 0xB4) ∧
    State.reset.priming = true := by decide
/-- Its clauses: an empty cursor, a source that ends or falls silent, one that never ends, and a finite length. -/
theorem witness_RemainingStreamOnEverySource :
    exhausted.cur = .eos ∧
    (∀ s ∈ [active 1 3 [2], onSilent 3 [2]], ∀ stream index, s.src.ending ≠ .endless stream index) ∧
    ((onEndless 1).cur = .byte 0x41 ∧ (onEndless 1).src.ending = .endless 0 0) ∧
    (∃ s : State, s.Inv ∧ s.remainingLength = .finite 11) := by
  refine ⟨rfl, fun s hs => ?_, ⟨rfl, rfl⟩, ⟨active 1 3 [2], active_inv _ _ _ (by decide), rfl⟩⟩
  simp only [List.mem_cons, List.not_mem_nil, or_false] at hs
  rcases hs with rfl | rfl
  · exact nofun
  · exact nofun

end Sys2Proof.Tests
end

section
/-! Status queries (`40_status_queries.md`): how a word without a width decodes, and what EXISTS and ISEMPTY answer. -/

namespace Sys2Proof

/-- R52, R54 (b): where the operation takes no width, the opcode alone decides. -/
theorem decode_of_opcode {i : Instr} (hi : i.usesWidth = false) {w : CmdWord} (h : w.extractLsb' 6 4 = i.opcode) :
    decode w = .instr i := by
  have hop : CmdWord.op w = i.opcode := h
  cases i with
  | rdCharW r => cases hi
  | rdIntW r => cases hi
  | existsQ => simp [decode, hop, Instr.opcode]
  | isEmpty => simp [decode, hop, Instr.opcode]
  | rdBit => simp [decode, hop, Instr.opcode]
  | rdChar => simp [decode, hop, Instr.opcode]
  | rdShort => simp [decode, hop, Instr.opcode]
  | rdInt => simp [decode, hop, Instr.opcode]
  | rdStr => simp [decode, hop, Instr.opcode]

namespace Machine

theorem zextBool_eq_ite (b : Bool) : zextBool b = if b = true then 1 else 0 := by
  cases b <;> rfl

theorem exec_existsQ (s : State) : exec .existsQ s = .next (s.log (.beat (okBeat (zextBool s.bound)))) := rfl

theorem exec_isEmpty (s : State) : exec .isEmpty s = .next (s.log (.beat (okBeat (zextBool s.isEmpty)))) := rfl

/-- Settles O21: the answer is `bound`, and the final beat is all that the command adds to the state. -/
theorem existsAnswersBound : Obligations.ExistsAnswersBound := by
  refine ⟨by decide, fun w hw => decode_of_opcode rfl hw, fun s => ?_⟩
  rw [exec_existsQ, zextBool_eq_ite]
  rfl

/-- Settles O22: the answer is the flag `empty`, which the invariant ties to the length of the remaining stream, since
a byte in `cur` has at least one unread bit. -/
theorem isEmptyAnswersWhetherABitIsLeft : Obligations.IsEmptyAnswersWhetherABitIsLeft := by
  refine ⟨by decide, fun w hw => decode_of_opcode rfl hw, fun s => ⟨?_, fun hinv => hinv.remainingLength_eq_zero.symm⟩⟩
  have hdata : zextBool s.isEmpty = if s.cur = .eos then 1 else 0 := by
    simp only [zextBool_eq_ite, State.isEmpty_iff]
  rw [exec_isEmpty, hdata]
  rfl

end Machine
end Sys2Proof
end

section
/-! The single-bit read (`41_bit_read.md`): what RDBIT answers, from what `ReadBit()` does. -/

namespace Sys2Proof.Machine

/-- R80, R82: the last bit of the buffered byte, when the source answers the eager refill. -/
theorem readBit_of_last_next {s : State} {b : Byte} {a : ByteOrEos} {src : Source} (hc : s.cur = .byte b) (h1 : s.n = 1)
    (hn : s.src.next = some (a, src)) : readBit s = .ok (b.getLsbD 0) (s.fill a src) := by
  rw [readBit_of_last hc h1, refill_setN, refill_of_next hn, Res.bind_ok]

/-- R34: a refill answered with a byte, and then a beat. -/
theorem State.log_fill_byte (s : State) (c : Byte) (src : Source) (b : Beat) :
    (s.fill (.byte c) src).log (.beat b) =
      { s with cur := .byte c, n := 8, src := src, ports := s.ports ++ [.pull (.byte c), .beat b] } := by
  simp [State.fill, State.load, State.log]

/-- R34: a refill answered with EOS, and then a beat. -/
theorem State.log_fill_eos (s : State) (src : Source) (b : Beat) :
    (s.fill .eos src).log (.beat b) =
      { s with cur := .eos, n := 0, src := src, ports := s.ports ++ [.pull .eos, .beat b] } := by
  simp [State.fill, State.load, State.log]

/-- R58, R80: RDBIT answers the bit that was read. -/
theorem exec_rdBit_of_ok {s t : State} {x : Bool} (h : readBit s = .ok x t) :
    exec .rdBit s = .next (t.log (.beat ⟨true, .ok, if x then 1 else 0⟩)) := by
  rw [exec_eq_respond, operation, h, Res.bind_ok, zextBool_eq_ite]
  rfl

/-- R17, R80: on an empty cursor RDBIT adds one error beat and does nothing else. -/
theorem exec_rdBit_of_eos {s : State} (h : s.cur = .eos) :
    exec .rdBit s = .next (s.log (.beat ⟨true, .eosErr, 0⟩)) := by
  rw [exec_eq_respond, operation, readBit_of_eos h, Res.bind_err]
  rfl

/-- Settles O23: one case for each way `ReadBit()` can go at entry. Only the last bit of the byte pulls, and the answer
to that pull decides what the cursor then holds. -/
theorem rdBitResult : Obligations.RdBitResult := by
  refine ⟨by decide, fun w hw => decode_of_opcode rfl hw, fun s => ⟨exec_rdBit_of_eos, ?more, ?byte, ?eos⟩⟩
  case more =>
    intro b hc hn
    have h0 : s.n ≠ 0 := fun h => by simp [h] at hn
    have h1 : s.n ≠ 1 := fun h => by simp [h] at hn
    exact exec_rdBit_of_ok (readBit_of_more hc h0 h1)
  case byte =>
    intro b c src hc h1 hn
    rw [exec_rdBit_of_ok (readBit_of_last_next hc h1 hn), State.log_fill_byte]
  case eos =>
    intro b src hc h1 hn
    rw [exec_rdBit_of_ok (readBit_of_last_next hc h1 hn), State.log_fill_eos]

end Sys2Proof.Machine
end

section
/-! The character reads (`42_char_reads.md`): RDCHAR from what `ReadChar()` does, RDCHARW from the run of single bits. -/

namespace Sys2Proof

/-- R51, R53: in a word `{op, r}` the width stands in the low six bits, below the opcode's match bits. -/
theorem opcode_append_ofNat (op : BitVec 4) {r : Nat} (hr : r < 64) :
    op ++ BitVec.ofNat 6 r = (op ++ (0 : BitVec 6)) ||| BitVec.ofNat 10 r := by
  have h10 : r < 1024 := by omega
  apply BitVec.eq_of_toNat_eq
  rw [BitVec.toNat_or, BitVec.toNat_append, BitVec.toNat_append]
  simp [Nat.mod_eq_of_lt hr, Nat.mod_eq_of_lt h10]

/-- R52, R53: opcode 4 reads its width from the low six bits. -/
theorem decode_of_opcode_rdCharW {w : CmdWord} (h : w.extractLsb' 6 4 = 4) :
    decode w = .instr (.rdCharW (w.extractLsb' 0 6).toNat) := by
  have hop : CmdWord.op w = 4 := h
  simp [decode, hop, CmdWord.r]

namespace Machine

/-- R90, the fast path, when the source answers the refill. -/
theorem readChar_of_aligned_next {s : State} {b : Byte} {a : ByteOrEos} {src : Source} (hc : s.cur = .byte b)
    (h8 : s.n = 8) (hn : s.src.next = some (a, src)) : readChar s = .ok b (s.fill a src) := by
  rw [readChar_of_aligned hc h8, refill_of_next hn, Res.bind_ok]

/-- R38: in the middle of a byte the count is at neither bound. -/
theorem State.n_ne_of_midbyte {s : State} (h1 : 1 ≤ s.n.val) (h7 : s.n.val ≤ 7) : s.n ≠ 0 ∧ s.n ≠ 8 :=
  ⟨fun h => by simp [h] at h1, fun h => by simp [h] at h7⟩

/-- R90, the slow path, when the source is at its end. -/
theorem readChar_of_midbyte_eos {s : State} {b : Byte} {src : Source} (hc : s.cur = .byte b) (h0 : s.n ≠ 0)
    (h8 : s.n ≠ 8) (hn : s.src.next = some (.eos, src)) :
    readChar s = .err .endOfStream (s.fill .eos src) := by
  rw [readChar_of_midbyte hc h0 h8, refill_of_next hn]
  rfl

/-- R90: a refill answered with a byte, the old count kept, and then a beat. -/
theorem State.log_setN_fill_byte (s : State) (c : Byte) (src : Source) (b : Beat) :
    ((s.fill (.byte c) src).setN s.n).log (.beat b) =
      { s with cur := .byte c, src := src, ports := s.ports ++ [.pull (.byte c), .beat b] } := by
  simp [State.fill, State.load, State.setN, State.log]

/-- R58, R90: RDCHAR answers the character that was read, zero-extended. -/
theorem exec_rdChar_of_ok {s t : State} {x : Byte} (h : readChar s = .ok x t) :
    exec .rdChar s = .next (t.log (.beat ⟨true, .ok, x.setWidth 32⟩)) := by
  rw [exec_eq_respond, operation, h]
  rfl

/-- R58, R90: RDCHAR that runs out of bits answers one error beat. -/
theorem exec_rdChar_of_err {s t : State} (h : readChar s = .err .endOfStream t) :
    exec .rdChar s = .next (t.log (.beat ⟨true, .eosErr, 0⟩)) := by
  rw [exec_eq_respond, operation, h]
  rfl

/-- Settles O24: one case for each way `ReadChar()` can go at entry. The fast path answers the buffered byte whatever
the refill brings; the slow path needs a byte from it, and keeps the count. -/
theorem rdCharResult : Obligations.RdCharResult := by
  refine ⟨by decide, fun w hw => decode_of_opcode rfl hw, fun s =>
    ⟨fun hc => exec_rdChar_of_err (readChar_of_eos hc), ?fastByte, ?fastEos, ?slowByte, ?slowEos⟩⟩
  case fastByte =>
    intro b c src hc h8 hn
    rw [exec_rdChar_of_ok (readChar_of_aligned_next hc h8 hn), State.log_fill_byte]
  case fastEos =>
    intro b src hc h8 hn
    rw [exec_rdChar_of_ok (readChar_of_aligned_next hc h8 hn), State.log_fill_eos]
  case slowByte =>
    intro b c src hc h1 h7 hn
    obtain ⟨h0, -⟩ := State.n_ne_of_midbyte h1 h7
    rw [exec_rdChar_of_ok (readChar_of_next_byte hc h0 hn), State.log_setN_fill_byte, spliced]
  case slowEos =>
    intro b src hc h1 h7 hn
    obtain ⟨h0, h8⟩ := State.n_ne_of_midbyte h1 h7
    rw [exec_rdChar_of_err (readChar_of_midbyte_eos hc h0 h8 hn), State.log_fill_eos]

/-- R93: at a legal width RDCHARW is that many single bits, on the path through `ReadChar()` as well. -/
theorem readCharW_eq_readBits {r : Nat} (h1 : 1 ≤ r) (h16 : r ≤ 16) (s : State) : readCharW r s = readBits r 0 s := by
  rw [readCharW_eq_takeBits h1 h16, readBits_eq_takeBits]

/-- Settles O26: the range check turns a bad width away, and RDCHARW 8 and RDCHAR are both the eight bits that
`exec_eq_takeBits` says. -/
theorem rdCharWResult : Obligations.RdCharWResult := by
  refine ⟨fun r hr => opcode_append_ofNat 4 hr, fun w hw => decode_of_opcode_rdCharW hw, fun r s =>
    ⟨?bad, ?legal, ?eight⟩⟩
  case bad => exact fun hr => exec_badCharWidth (by omega) s
  case legal =>
    intro h1 h16
    rw [exec_eq_respond, operation, readCharW_eq_readBits h1 h16]
  case eight =>
    have hW : fieldWidth (.rdCharW 8) = some 8 := fieldWidth_rdCharW (by decide) (by decide)
    rw [exec_eq_takeBits hW, exec_eq_takeBits (i := .rdChar) rfl]

end Machine
end Sys2Proof
end

section
/-! The integer reads (`43_int_reads.md`): RDSHORT and RDINT from the character reads they are made of, RDINTW from the
run of single bits. -/

namespace Sys2Proof

/-- R52, R53: opcode 7 reads its width from the low six bits. -/
theorem decode_of_opcode_rdIntW {w : CmdWord} (h : w.extractLsb' 6 4 = 7) :
    decode w = .instr (.rdIntW (w.extractLsb' 0 6).toNat) := by
  have hop : CmdWord.op w = 7 := h
  simp [decode, hop, CmdWord.r]

namespace Machine

/-! ### Characters on an accumulator -/

/-- R100, R101: shifting a character in below what the accumulator holds concatenates the two. -/
theorem setWidth_append_char {m w : Nat} (y : BitVec m) (c : Byte) :
    (y ++ c).setWidth w = y.setWidth w <<< 8 ||| c.setWidth w := by
  apply BitVec.eq_of_getLsbD_eq
  intro i hi
  rw [BitVec.getLsbD_setWidth, BitVec.getLsbD_append, BitVec.getLsbD_or, BitVec.getLsbD_shiftLeft,
    BitVec.getLsbD_setWidth, BitVec.getLsbD_setWidth]
  by_cases h8 : i < 8
  · simp [h8, hi]
  · have hi8 : i - 8 < w := by omega
    have hc : c.getLsbD i = false := BitVec.getLsbD_of_ge c i (by omega)
    simp [h8, hi, hi8, hc]

/-- R100, R101: a character that ends in the end of the stream ends the run of characters. -/
theorem readChars_succ_of_err {w : Nat} (k : Nat) (x : BitVec w) {s t : State} {e : ErrKind}
    (h : readChar s = .err e t) : readChars (k + 1) x s = .err e t := by
  rw [readChars_succ, h, Res.bind_err]

/-- The first character of a run. -/
theorem readChars_succ_of_first {w : Nat} (k : Nat) {s t : State} {c : Byte} (h : readChar s = .ok c t) :
    readChars (k + 1) (0 : BitVec w) s = readChars k (c.setWidth w) t := by
  rw [readChars_succ, h, Res.bind_ok]
  simp

/-- A later character of a run stands below those before it. -/
theorem readChars_succ_of_ok {m w : Nat} (k : Nat) (y : BitVec m) {s t : State} {c : Byte} (h : readChar s = .ok c t) :
    readChars (k + 1) (y.setWidth w) s = readChars k ((y ++ c).setWidth w) t := by
  rw [readChars_succ, h, Res.bind_ok, setWidth_append_char]

/-! ### Characters from an aligned cursor -/

/-- R34, R90: a refilled byte is read on the fast path. -/
theorem readChar_fill_of_next (s : State) (b : Byte) {src src' : Source} {a : ByteOrEos}
    (hn : src.next = some (a, src')) :
    readChar (s.fill (.byte b) src) = .ok b ((s.fill (.byte b) src).fill a src') :=
  readChar_of_aligned_next (by simp) (by simp) (by simpa using hn)

/-- R30: a source with a listed byte answers it. -/
theorem Source.next_of_cons {src : Source} {b : Byte} {bs : List Byte} (h : src.bytes = b :: bs) :
    src.next = some (.byte b, ⟨bs, src.ending⟩) := by
  simp [Source.next, h]

/-! ### RDSHORT -/

/-- R58, R100: RDSHORT that runs out of bits answers one error beat. -/
theorem exec_rdShort_of_err {s t : State} (h : readChars 2 (0 : BitVec 16) s = .err .endOfStream t) :
    exec .rdShort s = .next (t.log (.beat ⟨true, .eosErr, 0⟩)) := by
  rw [exec_eq_respond, operation, h]
  rfl

/-- R100: RDSHORT answers its two characters, the first above the second. -/
theorem exec_rdShort_of_ok {s t u : State} {c0 c1 : Byte} (h0 : readChar s = .ok c0 t) (h1 : readChar t = .ok c1 u) :
    exec .rdShort s = .next (u.log (.beat ⟨true, .ok, (c0 ++ c1).setWidth 32⟩)) := by
  have hchars : readChars 2 (0 : BitVec 16) s = .ok (c0 ++ c1) u := by
    rw [readChars_succ_of_first _ h0, readChars_succ_of_ok _ _ h1, BitVec.setWidth_eq]
    rfl
  rw [exec_eq_respond, operation, hchars]
  rfl

/-- R100 from an aligned cursor: the second byte and the one after it are pulled, whatever the last pull brings. -/
theorem exec_rdShort_of_aligned {s : State} {b0 b1 : Byte} {bs : List Byte} {a : ByteOrEos} {src : Source}
    (hc : s.cur = .byte b0) (h8 : s.n = 8) (hb : s.src.bytes = b1 :: bs)
    (hn : Source.next ⟨bs, s.src.ending⟩ = some (a, src)) :
    exec .rdShort s = .next (((s.fill (.byte b1) ⟨bs, s.src.ending⟩).fill a src).log
      (.beat ⟨true, .ok, (b0 ++ b1).setWidth 32⟩)) :=
  exec_rdShort_of_ok (readChar_of_aligned_next hc h8 (Source.next_of_cons hb)) (readChar_fill_of_next _ _ hn)

/-- Settles O27: the run of two characters ends at the first that fails, and otherwise concatenates both; from an
aligned cursor each character is the fast path of RDCHAR. -/
theorem rdShortIsBigEndian : Obligations.RdShortIsBigEndian := by
  refine ⟨by decide, fun w hw => decode_of_opcode rfl hw, ?firstErr, ?secondErr, ?ok, fun s b0 b1 hc h8 => ⟨?byte, ?eos⟩⟩
  case firstErr => exact fun s t h => exec_rdShort_of_err (readChars_succ_of_err _ _ h)
  case secondErr =>
    intro s t u c0 h0 h1
    apply exec_rdShort_of_err
    rw [readChars_succ_of_first _ h0, readChars_succ_of_err _ _ h1]
  case ok => exact fun s t u c0 c1 h0 h1 => exec_rdShort_of_ok h0 h1
  case byte =>
    intro b2 bs hb
    rw [exec_rdShort_of_aligned hc h8 hb rfl, State.log_fill_byte]
    simp
  case eos =>
    intro hsrc
    have hb : s.src.bytes = [b1] := by rw [hsrc]
    have hn : Source.next ⟨[], s.src.ending⟩ = some (.eos, ⟨[], .eos⟩) := by rw [hsrc]; rfl
    rw [exec_rdShort_of_aligned hc h8 hb hn, State.log_fill_eos]
    simp

/-! ### RDINT -/

/-- R58, R101: RDINT that runs out of bits answers one error beat. -/
theorem exec_rdInt_of_err {s t : State} (h : readChars 4 (0 : BitVec 32) s = .err .endOfStream t) :
    exec .rdInt s = .next (t.log (.beat ⟨true, .eosErr, 0⟩)) := by
  rw [exec_eq_respond, operation, h]
  rfl

/-- R101: RDINT answers its four characters, the first highest. -/
theorem exec_rdInt_of_ok {s t u v x : State} {c0 c1 c2 c3 : Byte} (h0 : readChar s = .ok c0 t)
    (h1 : readChar t = .ok c1 u) (h2 : readChar u = .ok c2 v) (h3 : readChar v = .ok c3 x) :
    exec .rdInt s = .next (x.log (.beat ⟨true, .ok, c0 ++ c1 ++ c2 ++ c3⟩)) := by
  have hchars : readChars 4 (0 : BitVec 32) s = .ok (c0 ++ c1 ++ c2 ++ c3) x := by
    rw [readChars_succ_of_first _ h0, readChars_succ_of_ok _ _ h1, readChars_succ_of_ok _ _ h2,
      readChars_succ_of_ok _ _ h3, BitVec.setWidth_eq]
    rfl
  rw [exec_eq_respond, operation, hchars]
  rfl

/-- R101 from an aligned cursor: three more bytes and the one after them are pulled, whatever the last pull brings. -/
theorem exec_rdInt_of_aligned {s : State} {b0 b1 b2 b3 : Byte} {bs : List Byte} {a : ByteOrEos} {src : Source}
    (hc : s.cur = .byte b0) (h8 : s.n = 8) (hb : s.src.bytes = b1 :: b2 :: b3 :: bs)
    (hn : Source.next ⟨bs, s.src.ending⟩ = some (a, src)) :
    exec .rdInt s = .next (((((s.fill (.byte b1) ⟨b2 :: b3 :: bs, s.src.ending⟩).fill (.byte b2)
      ⟨b3 :: bs, s.src.ending⟩).fill (.byte b3) ⟨bs, s.src.ending⟩).fill a src).log
        (.beat ⟨true, .ok, b0 ++ b1 ++ b2 ++ b3⟩)) :=
  exec_rdInt_of_ok (readChar_of_aligned_next hc h8 (Source.next_of_cons hb)) (readChar_fill_of_next _ _ rfl)
    (readChar_fill_of_next _ _ rfl) (readChar_fill_of_next _ _ hn)

/-- Settles O28: the run of four characters ends at the first that fails, and otherwise concatenates them; from an
aligned cursor each character is the fast path of RDCHAR. -/
theorem rdIntIsBigEndian : Obligations.RdIntIsBigEndian := by
  refine ⟨by decide, fun w hw => decode_of_opcode rfl hw, ?firstErr, ?secondErr, ?thirdErr, ?fourthErr, ?ok,
    fun s b0 b1 b2 b3 hc h8 => ⟨?byte, ?eos⟩⟩
  case firstErr => exact fun s t h => exec_rdInt_of_err (readChars_succ_of_err _ _ h)
  case secondErr =>
    intro s t u c0 h0 h1
    apply exec_rdInt_of_err
    rw [readChars_succ_of_first _ h0, readChars_succ_of_err _ _ h1]
  case thirdErr =>
    intro s t u v c0 c1 h0 h1 h2
    apply exec_rdInt_of_err
    rw [readChars_succ_of_first _ h0, readChars_succ_of_ok _ _ h1, readChars_succ_of_err _ _ h2]
  case fourthErr =>
    intro s t u v x c0 c1 c2 h0 h1 h2 h3
    apply exec_rdInt_of_err
    rw [readChars_succ_of_first _ h0, readChars_succ_of_ok _ _ h1, readChars_succ_of_ok _ _ h2,
      readChars_succ_of_err _ _ h3]
  case ok => exact fun s t u v x c0 c1 c2 c3 h0 h1 h2 h3 => exec_rdInt_of_ok h0 h1 h2 h3
  case byte =>
    intro b4 bs hb
    rw [exec_rdInt_of_aligned hc h8 hb rfl, State.log_fill_byte]
    simp
  case eos =>
    intro hsrc
    have hb : s.src.bytes = [b1, b2, b3] := by rw [hsrc]
    have hn : Source.next ⟨[], s.src.ending⟩ = some (.eos, ⟨[], .eos⟩) := by rw [hsrc]; rfl
    rw [exec_rdInt_of_aligned hc h8 hb hn, State.log_fill_eos]
    simp

/-! ### RDINTW -/

/-- R102: at a legal width RDINTW is that many single bits. -/
theorem readIntW_eq_readBits {r : Nat} (h1 : 1 ≤ r) (h32 : r ≤ 32) (s : State) : readIntW r s = readBits r 0 s := by
  rw [readIntW, if_pos ((intWidthOk_iff r).2 ⟨h1, h32⟩)]

/-- Settles O29: the range check turns a bad width away and lets the bits of a legal one through. -/
theorem rdIntWResult : Obligations.RdIntWResult := by
  refine ⟨fun r hr => opcode_append_ofNat 7 hr, fun w hw => decode_of_opcode_rdIntW hw, fun r s => ⟨?bad, ?legal⟩⟩
  case bad => exact fun hr => exec_badIntWidth (by omega) s
  case legal =>
    intro h1 h32
    rw [exec_eq_respond, operation, readIntW_eq_readBits h1 h32]

end Machine
end Sys2Proof
end

section
/-! Exceptions (`60_exceptions.md`): which commands answer WIDTH_ERR and ILLEGAL_CMD, and that such an answer leaves no
trace but its beat. -/

namespace Sys2Proof.Machine

/-! ### Which status an instruction answers with -/

theorem badWidth_iff {i : Instr} :
    badWidth i ↔ ∃ r, i = .rdCharW r ∧ (r = 0 ∨ 17 ≤ r) ∨ i = .rdIntW r ∧ (r = 0 ∨ 33 ≤ r) := by
  cases i <;> simp [badWidth]

theorem eq_of_finalBeat_log {u : State} {b c : Beat} (h : (u.log (.beat c)).finalBeat = some b) : b = c := by
  rw [finalBeat_log, Option.some.injEq] at h
  exact h.symm

/-- R120 to R122: an instruction succeeds, meets the end of the stream, or turns its width away; it never answers
ILLEGAL_CMD. -/
theorem exec_status {i : Instr} {s t : State} {b : Beat} (h : exec i s = .next t) (hb : t.finalBeat = some b) :
    b.status = .ok ∨ b.status = .eosErr ∨ b.status = .widthErr ∧ badWidth i := by
  cases exec_answer h with
  | existsQ | isEmpty | field | string => exact .inl (congrArg Beat.status (eq_of_finalBeat_log hb))
  | noField | noString => exact .inr (.inl (congrArg Beat.status (eq_of_finalBeat_log hb)))
  | badWidth hw => exact .inr (.inr ⟨congrArg Beat.status (eq_of_finalBeat_log hb), hw⟩)

/-- Settles O41: the range check turns every bad width away, and of the answers of an instruction only that one is
WIDTH_ERR. -/
theorem badWidthAnswersWidthError : Obligations.BadWidthAnswersWidthError := by
  refine ⟨rfl, fun s r hr => exec_badCharWidth hr s, fun s r hr => exec_badIntWidth hr s, fun i s t b h hb hs => ?_⟩
  rcases exec_status h hb with hok | heos | ⟨-, hw⟩
  · simp [hs] at hok
  · simp [hs] at heos
  · exact badWidth_iff.1 hw

/-! ### Errors that leave the block as it was -/

theorem runWord_of_instr {w : CmdWord} {i : Instr} (h : decode w = .instr i) (s : State) : runWord w s = exec i s := by
  rw [runWord, h]

/-- R122: a reserved word's answer. -/
theorem runWord_of_reserved {w : CmdWord} {op : BitVec 4} (h : decode w = .reserved op) (s : State) :
    runWord w s = .next (s.log (.beat (errBeat .illegalCommand))) := by
  rw [runWord, h]
  rfl

/-- R125: a command turned away for its width or its opcode only logs its beat. -/
theorem runWord_rejected {w : CmdWord} {s t : State} {b : Beat} (h : runWord w s = .next t)
    (hb : t.finalBeat = some b) (hs : b.status = .widthErr ∨ b.status = .illegalCmd) : t = s.log (.beat b) := by
  have logged {k : ErrKind} (e : runWord w s = .next (s.log (.beat (errBeat k)))) : t = s.log (.beat b) := by
    rw [e, Host.Outcome.next.injEq] at h
    subst h
    rw [eq_of_finalBeat_log hb]
  cases hd : decode w with
  | reserved op => exact logged (runWord_of_reserved hd s)
  | instr i =>
    have hi := runWord_of_instr hd s
    rcases exec_status (hi.symm.trans h) hb with hok | heos | ⟨-, hw⟩
    · simp [hok] at hs
    · simp [heos] at hs
    · exact logged (hi.trans (exec_badWidth hw s))

/-- R125, R127: a command word that completes does the same, and logs the same, whatever the log holds before it. -/
theorem runWord_withPorts {w : CmdWord} {s u : State} (h : runWord w s = .next u) (q : List PortEvent) :
    ∃ es, u.ports = s.ports ++ es ∧ runWord w (s.withPorts q) = .next (u.withPorts (q ++ es)) := by
  cases hd : decode w with
  | instr i =>
    rw [runWord_of_instr hd] at h ⊢
    exact exec_withPorts h q
  | reserved op =>
    rw [runWord_of_reserved hd, Host.Outcome.next.injEq] at h
    subst h
    exact ⟨[.beat (errBeat .illegalCommand)], rfl, runWord_of_reserved hd _⟩

/-- Settles O44: the failing command leaves the old state with a longer log, and no command reads the log. -/
theorem widthAndIllegalErrorsChangeNothing : Obligations.WidthAndIllegalErrorsChangeNothing := by
  intro w s t b h hb hs
  obtain rfl := runWord_rejected h hb hs
  exact ⟨rfl, fun next u hu => runWord_withPorts hu (s.log (.beat b)).ports⟩

end Sys2Proof.Machine
end

section
/-! The encodings (`30_encoding.md`): command words, their rows in the opcode map, their text, and response beats. -/

namespace Sys2Proof

/-! ### The two fields of a command word -/

theorem CmdWord.op_append (op : BitVec 4) (r : BitVec 6) : CmdWord.op (op ++ r) = op :=
  BitVec.extractLsb'_append_eq_left

theorem CmdWord.r_append (op : BitVec 4) (r : BitVec 6) : CmdWord.r (op ++ r) = r.toNat :=
  congrArg BitVec.toNat BitVec.extractLsb'_append_eq_right

theorem CmdWord.op_append_r (w : CmdWord) : CmdWord.op w ++ w.extractLsb' 0 6 = w :=
  BitVec.extractLsb'_append_extractLsb'_eq_extractLsb' (by decide) |>.trans BitVec.extractLsb'_eq_self

/-- The opcode map's one mask keeps the opcode and clears `r` (R52). -/
theorem CmdWord.and_mask (w : CmdWord) : w &&& 0x3C0 = CmdWord.op w ++ 0#6 := by
  have hm : (0x3C0 : CmdWord) = BitVec.allOnes 4 ++ 0#6 := by decide
  conv => lhs; rw [← CmdWord.op_append_r w, hm]
  rw [BitVec.and_append, BitVec.and_allOnes, BitVec.and_zero]

/-! ### Decoding and encoding -/

/-- Settles O1: each field of a concatenation is read back, and a well-formed width fits its six bits. -/
theorem decodeOfEncodeIsTheInstruction : Obligations.DecodeOfEncodeIsTheInstruction := by
  intro i hi
  have hop : (encode i).extractLsb' 6 4 = i.opcode := CmdWord.op_append _ _
  have width {r : Nat} (hr : r < 64) (op : BitVec 4) : ((op ++ BitVec.ofNat 6 r).extractLsb' 0 6).toNat = r :=
    (CmdWord.r_append _ _).trans (Nat.mod_eq_of_lt hr)
  cases i with
  | rdCharW r =>
    rw [decode_of_opcode_rdCharW hop, encode, Instr.rField, width (of_decide_eq_true hi)]
  | rdIntW r =>
    rw [decode_of_opcode_rdIntW hop, encode, Instr.rField, width (of_decide_eq_true hi)]
  | existsQ | isEmpty | rdBit | rdChar | rdShort | rdInt | rdStr => exact decode_of_opcode rfl hop

/-- What a word that decodes to an instruction says of it: its opcode, its width, and that the width fits (R52, R53). -/
theorem decode_instr {w : CmdWord} {i : Instr} (h : decode w = .instr i) :
    i.opcode = CmdWord.op w ∧ i.rField = (if i.usesWidth then w.extractLsb' 0 6 else 0#6) ∧ i.wf = true := by
  have hr : CmdWord.r w < 64 := (w.extractLsb' 0 6).isLt
  have hf : BitVec.ofNat 6 (CmdWord.r w) = w.extractLsb' 0 6 :=
    (BitVec.ofNat_toNat 6 (w.extractLsb' 0 6)).trans (BitVec.setWidth_eq _)
  unfold decode at h
  split at h
  case h_5 hop | h_8 hop =>
    cases h
    exact ⟨BitVec.eq_of_toNat_eq hop.symm, hf, decide_eq_true hr⟩
  case h_10 => cases h
  all_goals
    rename_i hop
    cases h
    exact ⟨BitVec.eq_of_toNat_eq hop.symm, rfl, rfl⟩

/-- Settles O2: a word is the concatenation of its two fields, and the mask clears the second. -/
theorem encodeOfDecodeIsTheCanonicalWord : Obligations.EncodeOfDecodeIsTheCanonicalWord := by
  intro w i h
  obtain ⟨hop, hr, hwf⟩ := decode_instr h
  refine ⟨hwf, ?_⟩
  rw [encode, hop, hr]
  split
  · exact CmdWord.op_append_r w
  · exact (CmdWord.and_mask w).symm

/-! ### The rows of the opcode map -/

/-- Every row has the one mask, so whether it selects a word depends on the opcode alone (R52). -/
theorem OpcodeRow.selects_eq {row : OpcodeRow} (hm : row.mask = 0x3C0) (w : CmdWord) :
    row.selects w = (CmdWord.op w ++ 0#6 == row.matchBits) := by
  rw [OpcodeRow.selects, hm, CmdWord.and_mask]

theorem mask_of_mem_opcodeRows : ∀ row ∈ opcodeRows, row.mask = 0x3C0 := by decide

theorem mask_of_mem_reservedRows : ∀ row ∈ reservedRows, row.mask = 0x3C0 := by decide

/-- One row for each of the sixteen opcodes (R52, R54 a). -/
theorem countP_rows_of_opcode (op : BitVec 4) :
    (opcodeRows ++ reservedRows).countP (fun row => op ++ 0#6 == row.matchBits) = 1 := by
  revert op; decide

/-- The row with an instruction's opcode is the one with its mnemonic. -/
theorem matchBits_iff_mnemonic (i : Instr) :
    ∀ row ∈ opcodeRows, ((i.opcode ++ 0#6 == row.matchBits) = true ↔ row.mnemonic = i.mnemonic) := by
  cases i <;> simp only [Instr.opcode, Instr.mnemonic] <;> decide

theorem matchBits_ne_of_reserved {op : BitVec 4} (h : 9 ≤ op.toNat) :
    ∀ row ∈ opcodeRows, (op ++ 0#6 == row.matchBits) = false := by
  revert op; decide

/-- What a word that decodes to a reserved opcode says of it (R54 a). -/
theorem decode_reserved {w : CmdWord} {op : BitVec 4} (h : decode w = .reserved op) :
    op = CmdWord.op w ∧ 9 ≤ op.toNat := by
  unfold decode at h
  split at h
  case h_10 =>
    cases h
    refine ⟨rfl, ?_⟩
    simp only [imp_false] at *
    omega
  all_goals cases h

/-- Settles O3: under the one mask both the rows and the decoder look at the opcode alone, and each of the sixteen
opcodes has one row. -/
theorem everyWordSelectsOneRow : Obligations.EveryWordSelectsOneRow := by
  intro w
  have hmask : ∀ row ∈ opcodeRows ++ reservedRows, row.mask = 0x3C0 := by
    simpa [or_imp, forall_and] using ⟨mask_of_mem_opcodeRows, mask_of_mem_reservedRows⟩
  refine ⟨?_, ?_⟩
  · rw [List.countP_congr fun row hrow => by rw [OpcodeRow.selects_eq (hmask row hrow)]]
    exact countP_rows_of_opcode _
  · cases hd : decode w with
    | instr i =>
      intro row hrow
      rw [OpcodeRow.selects_eq (mask_of_mem_opcodeRows row hrow), ← (decode_instr hd).1]
      exact matchBits_iff_mnemonic i row hrow
    | reserved op =>
      obtain ⟨rfl, h9⟩ := decode_reserved hd
      refine ⟨rfl, h9, fun row hrow => ?_⟩
      rw [OpcodeRow.selects_eq (mask_of_mem_opcodeRows row hrow)]
      exact matchBits_ne_of_reserved h9 row hrow

/-! ### Text -/

/-- Characters without a space are one piece. -/
theorem pieces_of_no_space {cs : List Char} (h : ∀ c ∈ cs, c ≠ ' ') (p : List Char) (hp : p ++ cs ≠ []) :
    pieces cs p = [p ++ cs] := by
  induction cs generalizing p with
  | nil =>
    rw [List.append_nil] at hp ⊢
    simp [pieces, hp]
  | cons c cs ih =>
    rw [List.forall_mem_cons] at h
    rw [pieces, if_neg h.1, ih h.2 _ (by simp), List.append_assoc, List.singleton_append]

/-- A space ends a piece. -/
theorem pieces_append_space {cs : List Char} (h : ∀ c ∈ cs, c ≠ ' ') (p rest : List Char) (hp : p ++ cs ≠ []) :
    pieces (cs ++ ' ' :: rest) p = (p ++ cs) :: pieces rest [] := by
  induction cs generalizing p with
  | nil =>
    rw [List.append_nil] at hp ⊢
    simp [pieces, hp]
  | cons c cs ih =>
    rw [List.forall_mem_cons] at h
    rw [List.cons_append, pieces, if_neg h.1, ih h.2 _ (by simp), List.append_assoc, List.singleton_append]

theorem decimal_of_isDigit {cs : List Char} (h : ∀ c ∈ cs, c.isDigit = true) (x : Nat) :
    decimal x cs = some (Nat.ofDigitChars 10 cs x) := by
  induction cs generalizing x with
  | nil => rfl
  | cons c cs ih =>
    rw [List.forall_mem_cons] at h
    rw [decimal, if_pos h.1, ih h.2, Nat.ofDigitChars_cons]

/-- A decimal digit neither ends a piece nor starts a comment. -/
theorem ne_space_of_isDigit {c : Char} (h : c.isDigit = true) : c ≠ ' ' ∧ c ≠ ';' :=
  ⟨by rintro rfl; simp at h, by rintro rfl; simp at h⟩

/-- A mnemonic, a space and a width are read as the instruction with that mnemonic and that width (R55). -/
theorem parseLine_of_width {m : List Char} (hm : ∀ c ∈ m, c ≠ ' ' ∧ c ≠ ';') (hne : m ≠ []) (r : Nat) :
    parseLine (m ++ ' ' :: Nat.toDigits 10 r) =
      [Instr.rdCharW r, .rdIntW r].find? fun i => i.wf && i.mnemonic.toList == m := by
  have hdigit : ∀ c ∈ Nat.toDigits 10 r, c.isDigit = true :=
    fun c => Nat.isDigit_of_mem_toDigits (by decide) (by decide)
  have hline : (m ++ ' ' :: Nat.toDigits 10 r).takeWhile (· ≠ ';') = m ++ ' ' :: Nat.toDigits 10 r := by
    refine List.takeWhile_eq_self_iff.2 fun c hmem => ?_
    simp only [List.mem_append, List.mem_cons] at hmem
    rcases hmem with h | rfl | h
    · exact decide_eq_true (hm c h).2
    · decide
    · exact decide_eq_true (ne_space_of_isDigit (hdigit c h)).2
  have hcut : pieces (m ++ ' ' :: Nat.toDigits 10 r) [] = [m, Nat.toDigits 10 r] := by
    rw [pieces_append_space (fun c h => (hm c h).1) [] _ hne,
      pieces_of_no_space (fun c h => (ne_space_of_isDigit (hdigit c h)).1) [] Nat.toDigits_ne_nil]
    rfl
  rw [parseLine, hline, hcut]
  simp only [decimal_of_isDigit hdigit, Nat.ofDigitChars_ten_toDigits]

/-- Settles O6: seven lines are fixed, and the other two are a mnemonic, a space and the digits of the width. -/
theorem commandTextRoundTrip : Obligations.CommandTextRoundTrip := by
  intro i hi
  cases i with
  | rdCharW r =>
    refine (parseLine_of_width (m := "RDCHARW".toList) (by simp) (by simp) r).trans ?_
    simp [hi, Instr.mnemonic]
  | rdIntW r =>
    refine (parseLine_of_width (m := "RDINTW".toList) (by simp) (by simp) r).trans ?_
    simp [hi, Instr.mnemonic]
  | existsQ | isEmpty | rdBit | rdChar | rdShort | rdInt | rdStr => decide

/-! ### Response beats -/

namespace Machine

theorem Status.ofCode_code (s : Status) : Status.ofCode s.code = s := by
  cases s <;> rfl

theorem Status.code_ofCode (c : BitVec 2) : (Status.ofCode c).code = c := by
  revert c; decide

theorem Beat.getLsbD_encode_last (b : Beat) : b.encode.getLsbD 34 = b.last := by
  rw [Beat.encode, BitVec.getLsbD_append, BitVec.getLsbD_append]
  simp

theorem Beat.extractLsb'_encode_data (b : Beat) : b.encode.extractLsb' 0 32 = b.data :=
  BitVec.extractLsb'_append_eq_right

theorem Beat.extractLsb'_encode_status (b : Beat) : b.encode.extractLsb' 32 2 = b.status.code :=
  (BitVec.extractLsb'_append_eq_of_le le_rfl).trans BitVec.extractLsb'_append_eq_right

/-- The three fields of a beat word, put together again (R56). -/
theorem BeatWord.append_fields (w : BeatWord) :
    BitVec.ofBool (w.getLsbD 34) ++ w.extractLsb' 32 2 ++ w.extractLsb' 0 32 = w := by
  have hlast : BitVec.ofBool (w.getLsbD 34) = w.extractLsb' 34 1 := by
    apply BitVec.eq_of_getLsbD_eq
    intro i hi
    obtain rfl : i = 0 := by omega
    simp
  have hhigh : w.extractLsb' 34 1 ++ w.extractLsb' 32 2 = w.extractLsb' 32 3 :=
    BitVec.extractLsb'_append_extractLsb'_eq_extractLsb' rfl
  have hall : w.extractLsb' 32 3 ++ w.extractLsb' 0 32 = w.extractLsb' 0 35 :=
    BitVec.extractLsb'_append_extractLsb'_eq_extractLsb' rfl
  rw [hlast, hhigh, hall, BitVec.extractLsb'_eq_self]

/-- Settles O5: the three fields do not overlap and cover the word, and the four status codes are all
of the two bits. -/
theorem beatWordsRoundTrip : Obligations.BeatWordsRoundTrip := by
  refine ⟨fun b => ?_, fun w => ?_, fun b => ⟨b.getLsbD_encode_last, b.extractLsb'_encode_data, ?_⟩⟩
  · rw [Beat.decode, b.getLsbD_encode_last, b.extractLsb'_encode_data, b.extractLsb'_encode_status, Status.ofCode_code]
  · rw [Beat.encode, Beat.decode, Status.code_ofCode]
    exact BeatWord.append_fields w
  · rw [b.extractLsb'_encode_status]
    cases b.status <;> rfl

/-- Settles O4: each word and each beat is evaluated; the errors of the rejected words do not depend on the state. -/
theorem workedEncodings : Obligations.WorkedEncodings := by
  refine ⟨by decide, fun w hw s => ?_, fun w hw s => ?_, by decide, by decide, by decide, by decide, by decide,
    by decide⟩
  · simp only [List.mem_cons, List.not_mem_nil, or_false] at hw
    rcases hw with rfl | rfl | rfl <;> rfl
  · simp only [List.mem_cons, List.not_mem_nil, or_false] at hw
    rcases hw with rfl | rfl <;> rfl

end Machine
end Sys2Proof
end

section
/-! Reset, priming and the step (`70_reset_and_hazards.md`): what a step does for each thing the outside can do next,
and that every step keeps the invariant. -/

namespace Sys2Proof.Machine

/-! ### The pull and the refill -/

/-- R34: a refill answered with a byte. -/
theorem State.fill_byte_eq (s : State) (c : Byte) (src : Source) :
    s.fill (.byte c) src = { s with cur := .byte c, n := 8, src := src, ports := s.ports ++ [.pull (.byte c)] } := rfl

/-- R34: a refill answered with EOS. -/
theorem State.fill_eos_eq (s : State) (src : Source) :
    s.fill .eos src = { s with cur := .eos, n := 0, src := src, ports := s.ports ++ [.pull .eos] } := rfl

/-- Settles O16: the four kinds of source, by whether a byte is listed and by what comes after the list. -/
theorem pullFollowsTheSource : Obligations.PullFollowsTheSource := by
  rintro ⟨priming, cur, n, bound, ⟨bytes, ending⟩, inputs, ports, past⟩
  refine ⟨?listed, ?eos, ?silent, ?endless⟩
  case listed => rintro b bs rfl; rfl
  case eos => rintro rfl rfl; rfl
  case silent => rintro rfl rfl; rfl
  case endless => rintro stream index rfl rfl; rfl

/-- Settles O17: a refill whose pull is answered fills the buffer with the answer. -/
theorem refillLoadsTheAnswer : Obligations.RefillLoadsTheAnswer := by
  intro s src
  refine ⟨fun hn => ?_, fun b hn => ?_⟩
  · rw [refill_of_next hn, State.fill_eos_eq]
  · rw [refill_of_next hn, State.fill_byte_eq]

/-! ### Priming -/

theorem prime_of_unbound {s : State} (h : s.bound = false) : prime s = .next { s with priming := false } := by
  rw [prime, if_neg (by simp [h])]

theorem prime_of_next {s : State} (h : s.bound = true) {a : ByteOrEos} {src : Source}
    (hn : s.src.next = some (a, src)) : prime s = .next { s.fill a src with priming := false } := by
  rw [prime, if_pos h, refill_of_next hn]

theorem prime_of_silent {s : State} (h : s.bound = true) (hn : s.src.next = none) :
    prime s = .fault (.sourceSilent s.ports) := by
  rw [prime, if_pos h, refill_of_silent hn]

/-- Everything priming can do: nothing, one refill, or wait for ever. -/
theorem prime_cases (s : State) :
    (s.bound = false ∧ prime s = .next { s with priming := false }) ∨
    (∃ a src, s.bound = true ∧ s.src.next = some (a, src) ∧ prime s = .next { s.fill a src with priming := false }) ∨
    (s.bound = true ∧ s.src.next = none ∧ prime s = .fault (.sourceSilent s.ports)) := by
  rcases Bool.eq_false_or_eq_true s.bound with hb | hb
  · cases hn : s.src.next with
    | none => exact .inr (.inr ⟨hb, rfl, prime_of_silent hb hn⟩)
    | some p => exact .inr (.inl ⟨p.1, p.2, hb, rfl, prime_of_next hb hn⟩)
  · exact .inl ⟨hb, prime_of_unbound hb⟩

/-! ### The step, by what the outside does next -/

theorem step_of_primingRuns {s : State} (hp : s.priming = true) (hr : s.primingRuns = true) : step s = prime s := by
  rw [step, if_pos hp, stepPriming]
  split
  · rename_i h
    simp [State.primingRuns, h] at hr
  · rfl

theorem step_of_resetInPriming {s : State} {p : ResetPulse} {rest : List Input}
    (h : s.inputs = .resetInPriming p :: rest) : step s = .next (resetBlock p { s with inputs := rest }) := by
  cases hp : s.priming <;> simp [step, stepPriming, stepReady, hp, h]

section ready
variable {s : State} (hp : s.priming = false)
include hp

theorem step_of_idle (h : s.inputs = []) : step s = .next s := by
  simp [step, stepReady, hp, h]

theorem step_of_cmd {w : CmdWord} {rest : List Input} (h : s.inputs = .cmd w :: rest) :
    step s = runWord w (s.accept w rest) := by
  simp [step, stepReady, hp, h]

theorem step_of_reset {p : ResetPulse} {rest : List Input} (h : s.inputs = .reset p :: rest) :
    step s = .next (resetBlock p { s with inputs := rest }) := by
  simp [step, stepReady, hp, h]

theorem step_of_resetInCmd {w : CmdWord} {events : Nat} {p : ResetPulse} {rest : List Input}
    (h : s.inputs = .resetInCmd w events p :: rest) :
    step s = abandon (runWord w) events p (s.accept w rest) := by
  simp [step, stepReady, hp, h]
end ready

/-- Everything a step can be: a reset that cuts Priming short or finds the block idle, the priming pull, an idle step,
a command, a reset between commands, and one in the middle of a command. -/
theorem step_cases (s : State) :
    (∃ p rest, s.inputs = .resetInPriming p :: rest ∧ step s = .next (resetBlock p { s with inputs := rest })) ∨
    (s.priming = true ∧ s.primingRuns = true ∧ step s = prime s) ∨
    (s.priming = false ∧ s.inputs = [] ∧ step s = .next s) ∨
    (∃ w rest, s.priming = false ∧ s.inputs = .cmd w :: rest ∧ step s = runWord w (s.accept w rest)) ∨
    (∃ p rest, s.priming = false ∧ s.inputs = .reset p :: rest ∧
      step s = .next (resetBlock p { s with inputs := rest })) ∨
    (∃ w events p rest, s.priming = false ∧ s.inputs = .resetInCmd w events p :: rest ∧
      step s = abandon (runWord w) events p (s.accept w rest)) := by
  cases hp : s.priming with
  | true =>
    cases hr : s.primingRuns with
    | true => exact .inr (.inl ⟨rfl, rfl, step_of_primingRuns hp hr⟩)
    | false =>
      refine .inl ?_
      unfold State.primingRuns at hr
      split at hr
      case h_1 p rest h => exact ⟨p, rest, h, step_of_resetInPriming h⟩
      all_goals cases hr
  | false =>
    match h : s.inputs with
    | [] => exact .inr (.inr (.inl ⟨rfl, rfl, step_of_idle hp h⟩))
    | .cmd w :: rest => exact .inr (.inr (.inr (.inl ⟨w, rest, rfl, rfl, step_of_cmd hp h⟩)))
    | .reset p :: rest => exact .inr (.inr (.inr (.inr (.inl ⟨p, rest, rfl, rfl, step_of_reset hp h⟩))))
    | .resetInPriming p :: rest => exact .inl ⟨p, rest, rfl, step_of_resetInPriming h⟩
    | .resetInCmd w events p :: rest =>
      exact .inr (.inr (.inr (.inr (.inr ⟨w, events, p, rest, rfl, rfl, step_of_resetInCmd hp h⟩))))

/-- Settles O7: both inputs are a plain reset of an idle block. -/
theorem resetEntersPriming : Obligations.ResetEntersPriming := by
  rintro s p rest hp (h | h)
  · rw [step_of_reset hp h, resetBlock]
  · rw [step_of_resetInPriming h, resetBlock]

/-- Settles O8: the reset comes before the priming pull. -/
theorem resetCutsPrimingShort : Obligations.ResetCutsPrimingShort := by
  intro s p rest _ h
  rw [step_of_resetInPriming h, resetBlock]

/-- Settles O9: priming is one refill of a bound source, and nothing of an unbound one. -/
theorem primingOutcomes : Obligations.PrimingOutcomes := by
  intro s hp hr
  rw [step_of_primingRuns hp hr]
  refine ⟨prime_of_unbound, fun hb b src hn => ?_, fun hb src hn => ?_⟩
  · rw [prime_of_next hb hn, State.fill_byte_eq]
  · rw [prime_of_next hb hn, State.fill_eos_eq]

/-- Settles O10: the refill of priming waits for ever. -/
theorem silentSourceHangsPriming : Obligations.SilentSourceHangsPriming := by
  intro s hp hr hb hn
  rw [step_of_primingRuns hp hr, prime_of_silent hb hn]

/-- Settles O11: the step accepts the word and runs what it decodes to. -/
theorem stepRunsTheDecodedInstruction : Obligations.StepRunsTheDecodedInstruction := by
  intro s w rest i hp h hd
  rw [step_of_cmd hp h, runWord_of_instr hd]
  rfl

theorem decode_of_reservedOpcode {w : CmdWord} (h : 9 ≤ (w.extractLsb' 6 4).toNat) :
    decode w = .reserved (CmdWord.op w) := by
  cases hd : decode w with
  | reserved op => rw [(decode_reserved hd).1]
  | instr i =>
    have hop : i.opcode.toNat ≤ 8 := by cases i <;> simp [Instr.opcode]
    rw [(decode_instr hd).1, CmdWord.op] at hop
    omega

/-- Settles O12: a word with such an opcode is reserved, and its answer is one beat. -/
theorem reservedOpcodeAnswersIllegalCommand : Obligations.ReservedOpcodeAnswersIllegalCommand := by
  refine ⟨rfl, fun s w rest hp h h9 => ?_⟩
  rw [step_of_cmd hp h, runWord_of_reserved (decode_of_reservedOpcode h9)]
  simp [State.log, State.accept, errBeat, ErrKind.status]

/-- Settles O13: nothing is presented. -/
theorem idleBlockStays : Obligations.IdleBlockStays := fun _ hp h => step_of_idle hp h

/-- A table word that names an instruction is a command word that decodes to it. -/
theorem decode_of_decodeTableWord {nbits w : Nat} {i : Instr} (h : decodeTableWord nbits w = some i) :
    w % 2 ^ nbits < 1024 ∧ decode (BitVec.ofNat 10 (w % 2 ^ nbits)) = .instr i := by
  by_cases hv : w % 2 ^ nbits < 1024
  · simp only [decodeTableWord, if_pos hv] at h
    cases hd : decode (BitVec.ofNat 10 (w % 2 ^ nbits)) with
    | instr j => simp_all
    | reserved op => simp [hd] at h
  · simp [decodeTableWord, hv] at h

/-- Settles O15: past Priming the host only puts the word at the head of the inputs. -/
theorem presentedWordRunsNext : Obligations.PresentedWordRunsNext := by
  intro s nbits w i hp h
  obtain ⟨hv, hd⟩ := decode_of_decodeTableWord h
  have hpresent : s.withFetchWord nbits w =
      { s with inputs := .cmd (BitVec.ofNat 10 (w % 2 ^ nbits)) :: s.inputs } := by
    simp [State.withFetchWord, State.primed, hv, hp]
  rw [hpresent, ← runWord_of_instr hd]
  exact step_of_cmd (s := { s with inputs := .cmd (BitVec.ofNat 10 (w % 2 ^ nbits)) :: s.inputs }) hp rfl

/-! ### The invariant -/

/-- Settles O50: nothing has crossed the ports at reset, and the cursor is empty. -/
theorem invariantAtReset : Obligations.InvariantAtReset := by
  have atReset (srcOk : Bool) (src : Source) : (State.atReset srcOk src).Inv :=
    ⟨nofun, fun _ => rfl, fun _ => ⟨rfl, rfl⟩, fun _ => ⟨rfl, rfl⟩, nofun, by simp [State.atReset, eosAnswers], nofun⟩
  exact ⟨atReset _ _, atReset⟩

/-- Priming that ends without a source: the cursor was empty and stays so (R23). -/
theorem State.Inv.primed_unbound {s : State} (h : s.Inv) (hb : s.bound = false) :
    ({ s with priming := false } : State).Inv :=
  ⟨h.count_of_byte, h.count_of_eos, nofun, h.unbound, fun e => by simp [hb] at e, by simpa [hb] using h.eos_once,
    fun e => by simp [hb] at e⟩

/-- Priming that ends with an answer to its pull, the first since reset (R141). -/
theorem State.Inv.primed_fill {s : State} (h : s.Inv) (hp : s.priming = true) (hb : s.bound = true) {a : ByteOrEos}
    {src : Source} (hn : s.src.next = some (a, src)) : ({ s.fill a src with priming := false } : State).Inv := by
  obtain ⟨-, hports⟩ := h.priming_fresh hp
  cases a with
  | byte b =>
    exact ⟨fun _ _ => by simp, nofun, nofun, fun e => by simp [hb] at e, fun _ _ => by simp [hports, lastAnswer],
      by simp [hports, eosAnswers, State.isEmpty], nofun⟩
  | eos =>
    exact ⟨nofun, fun _ => rfl, nofun, fun e => by simp [hb] at e, fun _ _ => by simp [hports, lastAnswer],
      by simp [hports, eosAnswers, State.isEmpty, hb], fun _ _ _ => by simpa using Source.next_eos hn⟩

theorem prime_inv {s t : State} (h : s.Inv) (hp : s.priming = true) (e : prime s = .next t) : t.Inv := by
  rcases prime_cases s with ⟨hb, f⟩ | ⟨a, src, hb, hn, f⟩ | ⟨-, -, f⟩ <;> rw [f] at e <;> cases e
  · exact h.primed_unbound hb
  · exact h.primed_fill hp hb hn

theorem runWord_inv {w : CmdWord} {s t : State} (h : s.Inv) (hp : s.priming = false) (e : runWord w s = .next t) :
    t.Inv := by
  cases hd : decode w with
  | instr i => exact exec_inv h hp ((runWord_of_instr hd s).symm.trans e)
  | reserved op =>
    rw [runWord_of_reserved hd] at e
    cases e
    exact h.beat hp _

/-- R142: whatever was running, a reset in the middle of it leaves a reset block. -/
theorem abandon_next {run : State → Host.Outcome State Fault Refusal} {events : Nat} {p : ResetPulse} {s t : State}
    (h : abandon run events p s = .next t) :
    ∃ log, unfinishedLog (run (s.cut events)) = .next log ∧
      t = resetBlock p { s with
        ports := log.take (s.ports.length + events),
        src := s.src.skip
          ((pulledBytes (log.take (s.ports.length + events))).length - (pulledBytes s.ports).length) } := by
  unfold abandon at h
  split at h
  case h_1 log hl =>
    cases h
    exact ⟨log, hl, rfl⟩
  all_goals cases h

/-- Settles O51: a reset starts afresh, priming makes the first pull, an idle step does nothing, and every operation a
command is made of keeps the invariant. -/
theorem stepKeepsTheInvariant : Obligations.StepKeepsTheInvariant := by
  intro s t h e
  rcases step_cases s with ⟨p, rest, -, f⟩ | ⟨hp, -, f⟩ | ⟨-, -, f⟩ | ⟨w, rest, hp, -, f⟩ | ⟨p, rest, -, -, f⟩ |
    ⟨w, events, p, rest, -, -, f⟩ <;> rw [f] at e
  · cases e
    exact resetBlock_inv _ _
  · exact prime_inv h hp e
  · cases e
    exact h
  · exact runWord_inv (h.accept hp w rest) hp e
  · cases e
    exact resetBlock_inv _ _
  · obtain ⟨log, -, rfl⟩ := abandon_next e
    exact resetBlock_inv _ _

end Sys2Proof.Machine
end

section
/-! The whole machine (`10_state.md`): what every instruction leaves unchanged, what an empty cursor answers, the form
of a response, and that nothing is refused and no step gets lost. -/

namespace Sys2Proof.Machine

/-! ### The registers -/

/-- Settles O56: each register is a function of `cur` or of `n`, and `n` fits its four bits. -/
theorem registerImage : Obligations.RegisterImage := by
  intro s
  have hn : s.nReg.toNat = s.n.val := by
    have := s.n.isLt
    rw [State.nReg, BitVec.toNat_ofNat, Nat.mod_eq_of_lt (by omega)]
  refine ⟨fun hc => ?_, fun b hc => ?_, hn, by omega, fun hp => ?_, fun hp => by simp [State.lifecycle, hp]⟩
  · simp [State.curEos, State.curByte, State.isEmpty, hc]
  · simp [State.curEos, State.curByte, State.isEmpty, hc]
  · cases he : s.isEmpty <;> simp [State.lifecycle, State.curEos, hp, he]

/-! ### An empty cursor -/

/-- R123: a field that is asked of an empty cursor. -/
theorem exec_field_of_eos {i : Instr} {k : Nat} (hk : fieldWidth i = some k) {s : State} (hc : s.cur = .eos) :
    exec i s = .next (s.log (.beat (errBeat .endOfStream))) := by
  obtain ⟨j, rfl⟩ : ∃ j, k = j + 1 := ⟨k - 1, by have := fieldWidth_range hk; omega⟩
  exact exec_of_takeBits_err hk (takeBits_of_eos hc j)

/-- R110 case 1. -/
theorem exec_rdStr_of_eos {s : State} (hc : s.cur = .eos) :
    exec .rdStr s = .next (s.log (.beat (errBeat .endOfStream))) := by
  rw [exec_eq_respond, operation, readString_of_eos hc]
  rfl

/-- Settles O38: RDSTR looks at the cursor first. -/
theorem emptyRdStrFails : Obligations.EmptyRdStrFails := fun _ hc => exec_rdStr_of_eos hc

/-- Settles O45: a width is checked before the cursor is, and no read goes on from an empty cursor. -/
theorem exhaustedCursorAnswersEveryCommand : Obligations.ExhaustedCursorAnswersEveryCommand := by
  intro i s hc
  cases i with
  | existsQ => rw [exec_existsQ, zextBool_eq_ite]; rfl
  | isEmpty => rw [exec_isEmpty, (State.isEmpty_iff s).2 hc]; rfl
  | rdStr => exact exec_rdStr_of_eos hc
  | rdBit => exact exec_field_of_eos rfl hc
  | rdChar => exact exec_field_of_eos rfl hc
  | rdShort => exact exec_field_of_eos rfl hc
  | rdInt => exact exec_field_of_eos rfl hc
  | rdCharW r =>
    by_cases hr : r = 0 ∨ 17 ≤ r
    · rw [exec_badCharWidth hr, expectedStatus, if_pos hr]; rfl
    · rw [exec_field_of_eos (fieldWidth_rdCharW (by omega) (by omega)) hc, expectedStatus, if_neg hr,
        if_neg (by omega)]; rfl
  | rdIntW r =>
    by_cases hr : r = 0 ∨ 33 ≤ r
    · rw [exec_badIntWidth hr, expectedStatus, if_pos hr]; rfl
    · rw [exec_field_of_eos (fieldWidth_rdIntW (by omega) (by omega)) hc, expectedStatus, if_neg hr,
        if_neg (by omega)]; rfl

/-! ### The frame of an instruction -/

/-- A relation that the elementary actions keep and that no beat disturbs holds across the whole instruction. -/
theorem CommandRel.exec_next {R : State → State → Prop} (h : CommandRel R) (hbeat : ∀ u b, R u (u.log (.beat b)))
    {i : Instr} {s t : State} (e : Machine.exec i s = .next t) : R s t := by
  rcases h.exec e with ⟨d, u, -, hr, rfl⟩ | ⟨k, u, -, hr, rfl⟩
  · exact h.trans hr (hbeat u _)
  · exact h.trans hr (hbeat u _)

/-- An instruction that completes: what it did before its final beat, and that beat (R56, R58). -/
theorem exec_follows {i : Instr} {s t : State} (e : exec i s = .next t) :
    ∃ u b, Follows s u ∧ t = u.log (.beat b) ∧ b.last = true ∧ (b.status ≠ .ok → b.data = 0) ∧
      ∀ Q : State → Prop, (operation i s).All Q → Q u := by
  rcases follows_commandRel.exec e with ⟨d, u, ho, hf, rfl⟩ | ⟨k, u, ho, hf, rfl⟩
  · exact ⟨u, okBeat d, hf, rfl, rfl, fun h => absurd rfl h, fun Q g => by rwa [ho] at g⟩
  · exact ⟨u, errBeat k, hf, rfl, rfl, fun _ => rfl, fun Q g => by rwa [ho] at g⟩

theorem inOrder_beat (u : State) (b : Beat) : InOrder u (u.log (.beat b)) := fun _ => by
  simp [pulledBytes_append, pulledBytes]

theorem freeInOrder_beat (u : State) (b : Beat) : FreeInOrder u (u.log (.beat b)) :=
  ⟨id, fun _ _ he => ⟨0, by simp [pulledBytes_append, pulledBytes, freeBytes], he, .inl rfl⟩⟩

theorem movesByPulls_beat (u : State) (b : Beat) : MovesByPulls u (u.log (.beat b)) :=
  ⟨[.beat b], rfl, fun _ => ⟨rfl, rfl⟩, fun h => absurd rfl h⟩

/-- Settles O18: a pull takes the first byte of what is left and logs it, and nothing else touches either. -/
theorem bytesArePulledInSourceOrder : Obligations.BytesArePulledInSourceOrder := fun _ _ _ e =>
  ⟨inOrder_commandRel.exec_next inOrder_beat e, (freeInOrder_commandRel.exec_next freeInOrder_beat e).2⟩

/-- Settles O47: the elementary actions of a command never write the other fields, and only a pull writes `cur`. -/
theorem instructionFrame : Obligations.InstructionFrame := by
  intro i s t e
  obtain ⟨es, hes, hstay, hmove⟩ := (movesByPulls_commandRel.exec_next movesByPulls_beat e).log
  obtain ⟨u, b, hf, rfl, -⟩ := exec_follows e
  refine ⟨hf.priming, hf.bound, hf.inputs, hf.past, fun htr => hstay ?_, fun hne => ?_⟩
  · rw [hes, transfers_append] at htr
    omega
  · rw [hes, List.drop_left]
    exact hmove fun h0 => hne (hstay h0).1

/-! ### The form of a response -/

/-- Only RDSTR sends data beats (R59, R113): bits are read without one. -/
theorem takeBits_beats (k : Nat) (s : State) : (takeBits k s).All fun t => beats t.ports = beats s.ports := by
  induction k generalizing s with
  | zero => rfl
  | succ k ih =>
    have hbit : (readBit s).All fun t => beats t.ports = beats s.ports := by
      rcases readBit_cases s with ⟨-, e⟩ | ⟨b, -, -, e⟩ | ⟨b, -, -, -, e⟩ | ⟨b, -, -, -, e⟩ | ⟨b, a, src, -, -, -, e⟩ <;>
        rw [e]
      · rfl
      · trivial
      · rfl
      · trivial
      · simp [Res.All, beats_append, beats]
    refine hbit.bind fun b t ht => Res.All.bind (Q := fun u => beats u.ports = beats s.ports) ?_ fun _ _ hu => hu
    rw [← ht]
    exact ih t

theorem operation_beats {i : Instr} (hi : i ≠ .rdStr) (s : State) :
    (operation i s).All fun t => beats t.ports = beats s.ports := by
  rcases instr_kinds i with rfl | rfl | hw | ⟨k, hk⟩ | rfl
  · rfl
  · rfl
  · rw [operation_badWidth hw]; rfl
  · rw [operation_eq_takeBits hk]
    exact (takeBits_beats k s).bind fun _ _ ht => ht
  · exact absurd rfl hi

/-- Settles O46: what an operation logs can cross the ports inside a command, and the response is its one last beat. -/
theorem responseEndsWithOneFinalBeat : Obligations.ResponseEndsWithOneFinalBeat := by
  intro i s t e
  obtain ⟨u, b, hf, rfl, hlast, hdata, ho⟩ := exec_follows e
  obtain ⟨es, hes, hinside⟩ := hf.ports
  refine ⟨es, b, by rw [State.log_ports, hes], hlast, hdata, fun e he => ?_, fun hi => ?_⟩
  · have := hinside e he
    cases e <;> exact this
  · have hu : beats u.ports = beats s.ports := ho _ (operation_beats hi s)
    rw [hes, beats_append] at hu
    simpa using hu

/-! ### Every step completes, or hangs on the source -/

/-- R150: on a source that answers, every read of a field completes. -/
theorem takeBits_ne_stuck_of_answers (k : Nat) {s : State} (h : s.Inv) (ha : s.src.answers = true) :
    ∀ f, takeBits k s ≠ .stuck f := by
  intro f e
  cases hk : s.remainingLength.atLeast k with
  | true =>
    obtain ⟨t, e', -⟩ := takeBits_of_atLeast k h ha hk
    simp [e] at e'
  | false =>
    obtain ⟨t, e', -⟩ := takeBits_of_short k h ha hk
    simp [e] at e'

theorem Source.answers_of_finite {src : Source} (h : src.finite = true) : src.answers = true := by
  rcases src with ⟨bs, _ | _ | _⟩ <;> simp_all [Source.finite, Source.answers]

theorem Source.ending_of_finite {src : Source} (h : src.finite = true) : src.ending = .eos := by
  rcases src with ⟨bs, _ | _ | _⟩ <;> simp_all [Source.finite]

theorem State.Inv.n_ne_zero {s : State} (h : s.Inv) {b : Byte} (hc : s.cur = .byte b) : s.n ≠ 0 :=
  fun e => by simpa [e] using h.count_of_byte b hc

/-- R112, R150: on a source that ends RDSTR completes. -/
theorem readString_ne_stuck_of_finite {s : State} (h : s.Inv) (hf : s.src.finite = true) :
    ∀ f, readString s ≠ .stuck f := by
  intro f e
  have hend := Source.ending_of_finite hf
  rcases s.cur_cases with hc | ⟨c, hc⟩
  · simp [readString_of_eos hc] at e
  · rcases readString_cases hc (h.n_ne_zero hc) with ⟨-, -, e'⟩ | ⟨-, -, e'⟩ | ⟨hs, -⟩ | ⟨_, _, hs, -⟩
    · simp [e'] at e
    · simp [e'] at e
    · simp [hend] at hs
    · simp [hend] at hs

theorem exec_next_of_not_stuck {i : Instr} {s : State} (h : ∀ f, operation i s ≠ .stuck f) :
    ∃ t, exec i s = .next t := by
  rw [exec_eq_respond]
  cases e : operation i s with
  | ok d u => exact ⟨_, rfl⟩
  | err k u => exact ⟨_, rfl⟩
  | stuck f => exact absurd e (h f)

theorem Res.bind_ok_stuck {α β : Type} {r : Res α} {g : α → State → β} {f : Fault}
    (h : (r.bind fun v t => Res.ok (g v t) t) = .stuck f) : r = .stuck f := by
  cases r with
  | ok v t => simp at h
  | err k t => simp at h
  | stuck e => simpa using h

/-- R150: every instruction completes on a source that answers, RDSTR if it ends as well. -/
theorem exec_completes {i : Instr} {s : State} (h : s.Inv) (ha : s.src.answers = true)
    (hstr : i = .rdStr → s.src.finite = true) : ∃ t, exec i s = .next t := by
  refine exec_next_of_not_stuck fun f e => ?_
  rcases instr_kinds i with rfl | rfl | hw | ⟨k, hk⟩ | rfl
  · cases e
  · cases e
  · rw [operation_badWidth hw] at e; cases e
  · rw [operation_eq_takeBits hk] at e
    exact takeBits_ne_stuck_of_answers k h ha f (Res.bind_ok_stuck e)
  · exact readString_ne_stuck_of_finite h (hstr rfl) f (Res.bind_ok_stuck e)

theorem runWord_completes {w : CmdWord} {s : State} (h : s.Inv) (ha : s.src.answers = true)
    (hstr : decode w = .instr .rdStr → s.src.finite = true) : ∃ t, runWord w s = .next t := by
  cases hd : decode w with
  | instr i =>
    rw [runWord_of_instr hd]
    exact exec_completes h ha fun hi => hstr (hi ▸ hd)
  | reserved op => exact ⟨_, runWord_of_reserved hd s⟩

/-- Settles O54: a read of a field makes finitely many pulls, and each is answered. -/
theorem answeringSourceCompletesEveryRead : Obligations.AnsweringSourceCompletesEveryRead :=
  fun _ _ h ha hi => exec_completes h ha fun e => absurd e hi

/-- R142: a reset in the middle of a command can always land, since the command is run on a source that ends or falls
silent, where it completes or hangs. -/
theorem abandon_runWord_completes (w : CmdWord) (events : Nat) (p : ResetPulse) {s : State} (h : s.Inv) :
    ∃ t, abandon (runWord w) events p s = .next t := by
  obtain ⟨log, hl⟩ : ∃ log, unfinishedLog (runWord w (s.cut events)) = .next log := by
    cases hd : decode w with
    | instr i =>
      obtain ⟨log, hl⟩ := operation_logged_of_listed i (h.cut events) (s.src.cut_not_endless events)
      exact ⟨log, by rw [runWord_of_instr hd, exec_eq_respond, unfinishedLog_respond, hl]⟩
    | reserved op => exact ⟨_, by rw [runWord_of_reserved hd]; rfl⟩
  rw [State.cut] at hl
  exact ⟨_, by rw [abandon, hl]⟩

/-- Settles O53: every pull is answered, and every instruction completes; a reset needs no answer. -/
theorem finiteSourceNeverHangs : Obligations.FiniteSourceNeverHangs := by
  intro s h hf
  have ha := Source.answers_of_finite hf
  rcases step_cases s with ⟨p, rest, -, f⟩ | ⟨-, -, f⟩ | ⟨-, -, f⟩ | ⟨w, rest, hp, -, f⟩ | ⟨p, rest, -, -, f⟩ |
    ⟨w, events, p, rest, hp, -, f⟩
  · exact ⟨_, f⟩
  · rcases prime_cases s with ⟨-, g⟩ | ⟨a, src, -, -, g⟩ | ⟨-, hn, -⟩
    · exact ⟨_, f.trans g⟩
    · exact ⟨_, f.trans g⟩
    · obtain ⟨a, src, hn'⟩ := Source.next_of_answers ha
      simp [hn] at hn'
  · exact ⟨_, f⟩
  · rw [f]
    exact runWord_completes (h.accept hp w rest) ha fun _ => hf
  · exact ⟨_, f⟩
  · rw [f]
    exact abandon_runWord_completes w events p (h.accept hp w rest)

/-! ### No refusal, and no broken cursor -/

/-- R18 item 2: where the invariant holds no operation finds a byte with no unread bit. -/
theorem operation_not_broken (i : Instr) {s : State} (h : s.Inv) : operation i s ≠ .stuck .brokenCursor := by
  intro e
  rcases instr_kinds i with rfl | rfl | hw | ⟨k, hk⟩ | rfl
  · cases e
  · cases e
  · rw [operation_badWidth hw] at e; cases e
  · rw [operation_eq_takeBits hk] at e
    obtain ⟨log, hl⟩ := takeBits_logged k h
    rw [Res.bind_ok_stuck e] at hl
    cases hl
  · have e := Res.bind_ok_stuck e
    rcases s.cur_cases with hc | ⟨c, hc⟩
    · simp [readString_of_eos hc] at e
    · rcases readString_cases hc (h.n_ne_zero hc) with ⟨-, -, e'⟩ | ⟨-, -, e'⟩ | ⟨-, e'⟩ | ⟨_, _, -, e'⟩ <;>
        simp [e'] at e

theorem respond_ne_refused (r : Res Data) (x : Refusal) : respond r ≠ .refused x := by
  cases r <;> simp [respond]

theorem runWord_ne_refused (w : CmdWord) (s : State) (x : Refusal) : runWord w s ≠ .refused x := by
  cases hd : decode w with
  | instr i =>
    rw [runWord_of_instr hd, exec_eq_respond]
    exact respond_ne_refused _ x
  | reserved op => simp [runWord_of_reserved hd]

theorem runWord_ne_brokenCursor (w : CmdWord) {s : State} (h : s.Inv) : runWord w s ≠ .fault .brokenCursor := by
  cases hd : decode w with
  | instr i =>
    rw [runWord_of_instr hd, exec_eq_respond]
    have := operation_not_broken i h
    cases e : operation i s <;> simp_all [respond]
  | reserved op => simp [runWord_of_reserved hd]

theorem abandon_ne_refused {run : State → Host.Outcome State Fault Refusal} (hrun : ∀ s x, run s ≠ .refused x)
    (events : Nat) (p : ResetPulse) (s : State) (x : Refusal) : abandon run events p s ≠ .refused x := by
  have hlog : ∀ o : Host.Outcome State Fault Refusal, unfinishedLog o = .refused x → o = .refused x := by
    intro o h
    cases o with
    | next t => cases h
    | fault f => cases f <;> cases h
    | refused r => cases h; rfl
  unfold abandon
  split
  case h_3 r h =>
    intro e
    cases e
    exact hrun _ _ (hlog _ h)
  all_goals nofun

/-- Settles O52: no arm refuses, and the fault of a broken cursor needs a byte with no unread bit. -/
theorem nothingIsRefused : Obligations.NothingIsRefused := by
  refine ⟨fun s x => ?_, fun s h => ?_⟩
  · rcases step_cases s with ⟨p, rest, -, f⟩ | ⟨-, -, f⟩ | ⟨-, -, f⟩ | ⟨w, rest, -, -, f⟩ | ⟨p, rest, -, -, f⟩ |
      ⟨w, events, p, rest, -, -, f⟩ <;> rw [f]
    · nofun
    · rcases prime_cases s with ⟨-, g⟩ | ⟨a, src, -, -, g⟩ | ⟨-, -, g⟩ <;> simp [g]
    · nofun
    · exact runWord_ne_refused w _ x
    · nofun
    · exact abandon_ne_refused (runWord_ne_refused w) events p _ x
  · rcases step_cases s with ⟨p, rest, -, f⟩ | ⟨-, -, f⟩ | ⟨-, -, f⟩ | ⟨w, rest, hp, -, f⟩ | ⟨p, rest, -, -, f⟩ |
      ⟨w, events, p, rest, hp, -, f⟩ <;> rw [f]
    · nofun
    · rcases prime_cases s with ⟨-, g⟩ | ⟨a, src, -, -, g⟩ | ⟨-, -, g⟩ <;> simp [g]
    · nofun
    · exact runWord_ne_brokenCursor w (h.accept hp w rest)
    · nofun
    · obtain ⟨t, ht⟩ := abandon_runWord_completes w events p (h.accept hp w rest)
      simp [ht]

/-! ### Between resets -/

theorem runWord_keeps_binding {w : CmdWord} {s t : State} (e : runWord w s = .next t) :
    t.priming = s.priming ∧ t.bound = s.bound := by
  cases hd : decode w with
  | instr i =>
    rw [runWord_of_instr hd] at e
    obtain ⟨u, b, hf, rfl, -⟩ := exec_follows e
    exact ⟨hf.priming, hf.bound⟩
  | reserved op =>
    rw [runWord_of_reserved hd] at e
    cases e
    exact ⟨rfl, rfl⟩

/-- R17, R44: on an empty cursor every command word adds one beat. -/
theorem runWord_of_eos (w : CmdWord) {s : State} (hc : s.cur = .eos) :
    ∃ b, runWord w s = .next (s.log (.beat b)) := by
  cases hd : decode w with
  | instr i =>
    rw [runWord_of_instr hd]
    exact ⟨_, exhaustedCursorAnswersEveryCommand i s hc⟩
  | reserved op => exact ⟨_, runWord_of_reserved hd s⟩

/-- Settles O48: without a reset a step past Priming is idle or a command, and a command on an empty cursor adds one
beat. -/
theorem onlyResetRebindsOrRevives : Obligations.OnlyResetRebindsOrRevives := by
  intro s t hp hr e
  rcases step_cases s with ⟨p, rest, hi, -⟩ | ⟨hp', -⟩ | ⟨-, -, f⟩ | ⟨w, rest, -, -, f⟩ | ⟨p, rest, -, hi, -⟩ |
    ⟨w, events, p, rest, -, hi, -⟩
  · simp [State.noResetNext, hi] at hr
  · simp [hp] at hp'
  · rw [f] at e
    cases e
    exact ⟨hp, rfl, fun hc => ⟨hc, rfl, rfl, rfl⟩⟩
  · rw [f] at e
    obtain ⟨hpr, hb⟩ := runWord_keeps_binding e
    refine ⟨hpr.trans hp, hb, fun hc => ?_⟩
    obtain ⟨b, g⟩ := runWord_of_eos w (s := s.accept w rest) hc
    rw [g] at e
    cases e
    refine ⟨hc, rfl, rfl, ?_⟩
    rw [State.log_ports, transfers_append_beat, State.accept_ports, transfers_append_cmd]
  · simp [State.noResetNext, hi] at hr
  · simp [State.noResetNext, hi] at hr

end Sys2Proof.Machine
end

section
/-! Fields of any width (`20_memory.md` section 8, `41_bit_read.md` to `43_int_reads.md`): the remaining stream, what a
field takes of it, and that reads of one width are one operation. -/

namespace Sys2Proof.Machine

/-! ### The remaining stream -/

/-- R8 on a source that is not endless: `R` is the list of its bits. -/
theorem State.bitAt_eq_remaining {s : State} (he : ∀ stream index, s.src.ending ≠ .endless stream index) (k : Nat) :
    s.bitAt k = s.remaining[k]? := by
  rcases s.cur_cases with hc | ⟨c, hc⟩
  · rw [State.bitAt_of_eos hc, State.remaining_of_eos hc, List.getElem?_nil]
  · rw [State.remaining_of_byte hc]
    exact State.bitAt_of_list hc fun _ => Source.byteAt_of_listed he _

theorem State.remainingLength_eq_remaining {s : State} (he : ∀ stream index, s.src.ending ≠ .endless stream index) :
    s.remainingLength = .finite s.remaining.length := by
  rcases s.cur_cases with hc | ⟨c, hc⟩
  · rw [State.remainingLength_of_eos hc, State.remaining_of_eos hc, List.length_nil]
  · rw [State.remainingLength_of_listed hc he, State.remaining_length hc]

/-- R8 on an endless source: `R` goes on with the free bytes after the listed ones. -/
theorem State.firstBits_of_endless {s : State} {c : Byte} {stream index : Nat} (hc : s.cur = .byte c)
    (he : s.src.ending = .endless stream index) (count : Nat) :
    s.firstBits (s.n.val + 8 * (s.src.bytes.length + count)) =
      lowBits s.n.val c ++ bytesBits (s.src.bytes ++ freeBytes stream index count) := by
  have hlen : s.n.val + 8 * (s.src.bytes.length + count) =
      (lowBits s.n.val c ++ bytesBits (s.src.bytes ++ freeBytes stream index count)).length := by
    simp [lowBits_length, bytesBits_length]
  rw [State.firstBits, hlen]
  refine filterMap_range_of_getElem? fun k hk => State.bitAt_of_list hc fun hn => ?_
  exact Source.byteAt_of_endless he (by omega)

/-- R8: under the invariant the bits left are the buffered byte's unread ones and whole bytes. -/
theorem State.Inv.remainingLength_mod {s : State} (h : s.Inv) {len : Nat} (hl : s.remainingLength = .finite len) :
    len % 8 = s.n.val % 8 := by
  rcases s.cur_cases with hc | ⟨c, hc⟩
  · rw [State.remainingLength_of_eos hc, StreamLength.finite.injEq] at hl
    rw [← hl, h.count_of_eos hc]
    rfl
  · have he : ∀ stream index, s.src.ending ≠ .endless stream index := fun _ _ he => by
      simp [State.remainingLength_of_endless hc he] at hl
    rw [State.remainingLength_of_listed hc he, StreamLength.finite.injEq] at hl
    omega

/-- Settles O57: `R` as a list on a source with an end, and as its first bits on one without. -/
theorem remainingStreamOnEverySource : Obligations.RemainingStreamOnEverySource := fun s =>
  ⟨fun hc => ⟨State.remainingLength_of_eos hc, State.bitAt_of_eos hc⟩,
    fun he => ⟨State.bitAt_eq_remaining he, State.remainingLength_eq_remaining he⟩,
    fun _ _ _ hc he => ⟨State.remainingLength_of_endless hc he, State.firstBits_of_endless hc he⟩,
    s.bitAt_isSome, fun _ h hl => h.remainingLength_mod hl⟩

/-! ### One operation for each width -/

/-- Settles O25: `ReadChar()` and the loop are the same eight bits on the same accumulator. -/
theorem rdCharIsEightBitReads : Obligations.RdCharIsEightBitReads := fun s => by
  rw [readChar_eq_takeBits, readBits_eq_takeBits]

/-- R103: two instructions that read fields of one width are one operation. -/
theorem exec_eq_of_fieldWidth {i j : Instr} {k : Nat} (hi : fieldWidth i = some k) (hj : fieldWidth j = some k)
    (s : State) : exec i s = exec j s := by
  rw [exec_eq_takeBits hi, exec_eq_takeBits hj]

/-- Settles O31: each pair reads fields of one width. -/
theorem readsOfOneWidthAgree : Obligations.ReadsOfOneWidthAgree := fun s =>
  ⟨fun _ h1 h16 => exec_eq_of_fieldWidth (fieldWidth_rdCharW h1 h16) (fieldWidth_rdIntW h1 (by omega)) s,
    exec_eq_of_fieldWidth rfl rfl s, exec_eq_of_fieldWidth rfl rfl s, exec_eq_of_fieldWidth rfl rfl s,
    exec_eq_of_fieldWidth rfl rfl s, exec_eq_of_fieldWidth rfl rfl s, exec_eq_of_fieldWidth rfl rfl s,
    exec_eq_of_fieldWidth rfl rfl s⟩

/-- Whatever a field answers: the number of the bits that were read, or the end of the stream. -/
theorem exec_field_answer {i : Instr} {k : Nat} (hk : fieldWidth i = some k) {s t : State} (e : exec i s = .next t) :
    (∃ bs u, takeBits k s = .ok bs u ∧ t = u.log (.beat (okBeat (pushBits (0 : BitVec 32) bs)))) ∨
    (∃ u, takeBits k s = .err .endOfStream u ∧ t = u.log (.beat (errBeat .endOfStream))) := by
  cases h : takeBits k s with
  | ok bs u =>
    rw [exec_of_takeBits_ok hk h, Host.Outcome.next.injEq] at e
    exact .inl ⟨bs, u, rfl, e.symm⟩
  | err c u =>
    obtain rfl := takeBits_err_kind h
    rw [exec_of_takeBits_err hk h, Host.Outcome.next.injEq] at e
    exact .inr ⟨u, rfl, e.symm⟩
  | stuck f => simp [exec_of_takeBits_stuck hk h] at e

theorem toNat_pushBits_zero_lt {w : Nat} (bs : List Bool) : (pushBits (0 : BitVec w) bs).toNat < 2 ^ bs.length := by
  rw [pushBits_zero, BitVec.toNat_ofNat]
  exact (Nat.mod_le _ _).trans_lt (bitsValue_lt bs)

/-- Settles O33: the data is the number of `k` bits, or 0. -/
theorem resultFitsItsWidth : Obligations.ResultFitsItsWidth := by
  intro i k s t b hk e hb
  rcases exec_field_answer hk e with ⟨bs, u, h, rfl⟩ | ⟨u, -, rfl⟩ <;> rw [eq_of_finalBeat_log hb]
  · rw [← length_takeBits h]
    exact toNat_pushBits_zero_lt bs
  · exact Nat.two_pow_pos k

/-! ### What a field takes of the stream -/

/-- R17: past Priming the lifecycle follows the length of `R`. -/
theorem State.Inv.lifecycle_eq {s : State} (h : s.Inv) (hp : s.priming = false) :
    s.lifecycle = if s.remainingLength = .finite 0 then .exhausted else .active := by
  simp only [State.lifecycle, hp, h.remainingLength_eq_zero, State.isEmpty_iff]
  rfl

/-- R45, enough bits: the field is the first `k` bits of `R`. -/
theorem exec_field_of_atLeast {i : Instr} {k : Nat} (hk : fieldWidth i = some k) {s : State} (h : s.Inv)
    (ha : s.src.answers = true) (hl : s.remainingLength.atLeast k = true) :
    ∃ u, takeBits k s = .ok (s.firstBits k) u ∧ Consumed k s u ∧ u.src.answers = true ∧ u.Inv ∧ u.priming = false ∧
      exec i s = .next (u.log (.beat ⟨true, .ok, BitVec.ofNat 32 (bitsValue (s.firstBits k))⟩)) := by
  obtain ⟨u, e, hc, ha', hi⟩ := takeBits_of_atLeast k h ha hl
  have hf := follows_commandRel.takeBits k s
  rw [e] at hf
  have hp : s.priming = false := by
    rcases s.cur_cases with hcur | ⟨c, hcur⟩
    · have := fieldWidth_range hk
      rw [State.remainingLength_of_eos hcur, StreamLength.atLeast, decide_eq_true_eq] at hl
      omega
    · exact (h.bound_of_byte hcur).2
  exact ⟨u, e, hc, ha', hi, hf.priming.trans hp, by rw [exec_of_takeBits_ok hk e, pushBits_zero]; rfl⟩

/-- R45, too few bits: the end of the stream, and nothing is left. -/
theorem exec_field_of_short {i : Instr} {k : Nat} (hk : fieldWidth i = some k) {s : State} (h : s.Inv)
    (ha : s.src.answers = true) (hl : s.remainingLength.atLeast k = false) :
    ∃ u, takeBits k s = .err .endOfStream u ∧ u.cur = .eos ∧ u.Inv ∧ u.priming = s.priming ∧ (s.cur = .eos → u = s) ∧
      exec i s = .next (u.log (.beat ⟨true, .eosErr, 0⟩)) := by
  obtain ⟨u, e, hc, hi, hs⟩ := takeBits_of_short k h ha hl
  have hf := follows_commandRel.takeBits k s
  rw [e] at hf
  exact ⟨u, e, hc, hi, hf.priming, hs, exec_of_takeBits_err hk e⟩

/-- Settles O30: every field is a run of single bits, which takes the first bits of `R` one by one. -/
theorem fieldExtractionLaw : Obligations.FieldExtractionLaw := by
  intro i k s hk
  refine ⟨by rw [exec_eq_takeBits hk, readBits_eq_takeBits], fun h ha hl => ?enough, fun h hp ha hl => ?short⟩
  case enough =>
    obtain ⟨u, -, hc, -, hi, hp, e⟩ := exec_field_of_atLeast hk h ha hl
    exact ⟨_, e, State.firstBits_length hl, finalBeat_log _ _, hc, hc.remainingLength, (hi.beat hp _).lifecycle_eq hp⟩
  case short =>
    obtain ⟨u, -, hcur, hi, hpr, hs, e⟩ := exec_field_of_short hk h ha hl
    have hp := hpr.trans hp
    have hzero : u.remainingLength = .finite 0 := State.remainingLength_of_eos hcur
    refine ⟨_, e, finalBeat_log _ _, hzero, ?_, fun h0 => ?_⟩
    · rw [(hi.beat hp _).lifecycle_eq hp, State.log_remainingLength, if_pos hzero]
    · rw [hs (h.remainingLength_eq_zero.1 h0)]
      rfl

/-! ### Two fields in a row -/

/-- R37: the number of more bits is the first number, shifted, and the second below it. -/
theorem pushBits_eq_shift_or {w : Nat} (x : BitVec w) (bs : List Bool) :
    pushBits x bs = x <<< bs.length ||| pushBits (0 : BitVec w) bs := by
  apply BitVec.eq_of_getLsbD_eq
  intro i hi
  rw [BitVec.getLsbD_or, BitVec.getLsbD_shiftLeft, getLsbD_pushBits, getLsbD_pushBits]
  by_cases h : i < bs.length <;> simp [h, hi]

theorem StreamLength.atLeast_minus {l : StreamLength} {j k : Nat} (h : l.atLeast (j + k) = true) :
    (l.minus j).atLeast k = true := by
  cases l <;> simp_all [StreamLength.minus, StreamLength.atLeast]
  omega

/-- Settles O32: the bits of the wide field are those of the first and then of the second, and the beat between the two
changes nothing that a read looks at. -/
theorem twoReadsAreOneWiderRead : Obligations.TwoReadsAreOneWiderRead := by
  intro j k s hj hk hjk h ha hl
  have hwj : fieldWidth (.rdIntW j) = some j := fieldWidth_rdIntW hj (by omega)
  have hwk : fieldWidth (.rdIntW k) = some k := fieldWidth_rdIntW hk (by omega)
  have hwjk : fieldWidth (.rdIntW (j + k)) = some (j + k) := fieldWidth_rdIntW (by omega) hjk
  obtain ⟨u, eu, hcu, hau, hiu⟩ := takeBits_of_atLeast j h ha (StreamLength.atLeast_of_le hl (by omega))
  obtain ⟨v, ev, -, -, -⟩ := takeBits_of_atLeast k hiu hau (by
    rw [hcu.remainingLength]; exact StreamLength.atLeast_minus hl)
  have eboth : takeBits (j + k) s = .ok (s.firstBits j ++ u.firstBits k) v := by
    rw [takeBits_add, eu, Res.bind_ok, ev, Res.bind_ok]
  obtain ⟨es, hes, elog⟩ := takeBits_withPorts ev
  have ek := elog (u.log (.beat (okBeat (pushBits (0 : BitVec 32) (s.firstBits j))))).ports
  refine ⟨_, _, _, _, _, exec_of_takeBits_ok hwj eu, finalBeat_log _ _, exec_of_takeBits_ok hwk ek, finalBeat_log _ _,
    exec_of_takeBits_ok hwjk eboth, ?_, rfl, rfl, rfl, ?_⟩
  · rw [finalBeat_log, pushBits_append, pushBits_eq_shift_or, length_takeBits ev]
    rfl
  · rw [State.log_ports, State.log_ports v, transfers_append_beat, transfers_append_beat, State.withPorts,
      transfers_append, State.log_ports, transfers_append_beat, hes, transfers_append]

/-! ### One field after the other, from reset -/

/-- A state past Priming that meets the invariant, with `R` left on a source that ends. -/
structure OnStream (R : List Bool) (s : State) : Prop where
  inv : s.Inv
  ready : s.priming = false
  finite : s.src.finite = true
  remaining : s.remaining = R

theorem OnStream.beat {R : List Bool} {s : State} (h : OnStream R s) (b : Beat) : OnStream R (s.log (.beat b)) :=
  ⟨h.inv.beat h.ready b, h.ready, h.finite, h.remaining⟩

/-- R45 on a source that ends, enough bits. -/
theorem OnStream.exec_of_le {R : List Bool} {s : State} (h : OnStream R s) {i : Instr} {k : Nat}
    (hk : fieldWidth i = some k) (hl : k ≤ R.length) :
    ∃ t, exec i s = .next t ∧ OnStream (R.drop k) t ∧
      t.finalBeat = some ⟨true, .ok, BitVec.ofNat 32 (bitsValue (R.take k))⟩ := by
  obtain ⟨hi, hp, hf, rfl⟩ := h
  obtain ⟨u, e, hr, hf', hi'⟩ := takeBits_of_le k hi hf hl
  have hfol := follows_commandRel.takeBits k s
  rw [e] at hfol
  refine ⟨_, exec_of_takeBits_ok hk e, OnStream.beat ⟨hi', hfol.priming.trans hp, hf', hr⟩ _, ?_⟩
  rw [finalBeat_log, pushBits_zero]
  rfl

/-- R45 on a source that ends, too few bits. -/
theorem OnStream.exec_of_gt {R : List Bool} {s : State} (h : OnStream R s) {i : Instr} {k : Nat}
    (hk : fieldWidth i = some k) (hl : R.length < k) :
    ∃ t, exec i s = .next t ∧ OnStream [] t ∧ t.finalBeat = some ⟨true, .eosErr, 0⟩ := by
  obtain ⟨hi, hp, hf, rfl⟩ := h
  obtain ⟨u, e, hc, hf', hi', -⟩ := takeBits_of_gt k hi hf hl
  have hfol := follows_commandRel.takeBits k s
  rw [e] at hfol
  exact ⟨_, exec_of_takeBits_err hk e,
    OnStream.beat ⟨hi', hfol.priming.trans hp, hf', State.remaining_of_eos hc⟩ _, finalBeat_log _ _⟩

/-- Enough bits or not, a field drops its width from `R`. -/
theorem OnStream.exec_drop {R : List Bool} {s : State} (h : OnStream R s) {i : Instr} {k : Nat}
    (hk : fieldWidth i = some k) : ∃ t, exec i s = .next t ∧ OnStream (R.drop k) t := by
  by_cases hl : k ≤ R.length
  · obtain ⟨t, e, ht, -⟩ := h.exec_of_le hk hl
    exact ⟨t, e, ht⟩
  · obtain ⟨t, e, ht, -⟩ := h.exec_of_gt hk (by omega)
    exact ⟨t, e, by rwa [List.drop_of_length_le (by omega)]⟩

/-- The same field `q` times. -/
theorem OnStream.repeatExec {R : List Bool} {s : State} (h : OnStream R s) {i : Instr} {k : Nat}
    (hk : fieldWidth i = some k) (q : Nat) :
    ∃ t, Machine.repeatExec q i s = some t ∧ OnStream (R.drop (k * q)) t := by
  induction q generalizing R s with
  | zero => exact ⟨s, rfl, h⟩
  | succ q ih =>
    obtain ⟨t, e, ht⟩ := h.exec_drop hk
    obtain ⟨u, e', hu⟩ := ih ht
    refine ⟨u, by rw [Machine.repeatExec, e]; exact e', ?_⟩
    rwa [List.drop_drop, Nat.add_comm k, ← Nat.mul_succ] at hu

/-- R141: primed on a source that ends, all its bits are left. -/
theorem onStream_of_primed {bs : List Byte} {s : State} (h : step (State.atReset true ⟨bs, .eos⟩) = .next s) :
    OnStream (bytesBits bs) s := by
  have hi := stepKeepsTheInvariant _ _ (invariantAtReset.2 true ⟨bs, .eos⟩) h
  rw [step_of_primingRuns rfl rfl] at h
  obtain ⟨a, src, hn, hf, hr⟩ := fill_remaining_of_finite (s := State.atReset true ⟨bs, .eos⟩) rfl
  rw [prime_of_next rfl hn, Host.Outcome.next.injEq] at h
  subst h
  exact ⟨hi, rfl, by simpa using hf, hr⟩

/-- Settles O34: after `q` bits the rest of the stream is left, and its first bit is bit `q`. -/
theorem bitReadsReproduceTheStream : Obligations.BitReadsReproduceTheStream := by
  intro bs s h
  have hR := onStream_of_primed h
  have hk : fieldWidth .rdBit = some 1 := rfl
  refine ⟨fun i j b hb hj => ?_, fun q hq => ?_⟩
  · obtain ⟨t, et, ht⟩ := hR.repeatExec hk (8 * i + j)
    rw [Nat.one_mul] at ht
    have hbit : (bytesBits bs)[8 * i + j]? = some (b.getLsbD (7 - j)) := by
      rw [bytesBits_getElem?, show (8 * i + j) / 8 = i by omega, hb, show (8 * i + j) % 8 = j by omega]
      rfl
    obtain ⟨hlt, hget⟩ := List.getElem?_eq_some_iff.1 hbit
    obtain ⟨u, eu, -, hu⟩ := ht.exec_of_le hk (by rw [List.length_drop]; omega)
    refine ⟨t, u, et, eu, ?_⟩
    rw [hu, List.drop_eq_getElem_cons hlt, hget]
    cases b.getLsbD (7 - j) <;> rfl
  · obtain ⟨t, et, ht⟩ := hR.repeatExec hk q
    obtain ⟨u, eu, -, hu⟩ := ht.exec_of_gt hk (by rw [List.length_drop, bytesBits_length]; omega)
    exact ⟨t, u, et, eu, hu⟩

/-- Settles O35: after `i` groups of `r` bits the rest of the stream is left, and the next group is its first `r`. -/
theorem charReadsGroupTheStream : Obligations.CharReadsGroupTheStream := by
  intro bs r s h1 h16 h
  have hR := onStream_of_primed h
  have hk : fieldWidth (.rdCharW r) = some r := fieldWidth_rdCharW h1 h16
  refine ⟨fun i hi => ?_, fun i hi hlt => ?_⟩
  · obtain ⟨t, et, ht⟩ := hR.repeatExec hk i
    obtain ⟨u, eu, -, hu⟩ := ht.exec_of_le hk (by rw [List.length_drop, bytesBits_length]; omega)
    exact ⟨t, u, et, eu, hu⟩
  · obtain ⟨t, et, ht⟩ := hR.repeatExec hk i
    obtain ⟨u, eu, hu, hb⟩ := ht.exec_of_gt hk (by rw [List.length_drop, bytesBits_length]; omega)
    exact ⟨t, u, et, eu, hb, hu.inv.remaining_eq_nil.1 hu.remaining⟩

end Sys2Proof.Machine
end

section
/-! The string read (`44_string_read.md`): what RDSTR answers on a source that ends, falls silent, or goes on for ever,
and what its beats stand for; and the reads that hang on a silent source. -/

namespace Sys2Proof.Machine

/-! ### The result the caller reads -/

theorem setWidth_setWidth_byte (c : Byte) : (c.setWidth 32).setWidth 8 = c := by
  rw [BitVec.setWidth_setWidth_of_le c (by decide), BitVec.setWidth_eq]

/-- R59: data beats add their characters to the sequence. -/
theorem resultOf_chars (cs : List Byte) (rest : List Beat) (acc : List Byte) :
    resultOf (cs.map charBeat ++ rest) acc = resultOf rest (acc ++ cs) := by
  induction cs generalizing acc with
  | nil => simp
  | cons c cs ih =>
    have hdata : (charBeat c).data.setWidth 8 = c := setWidth_setWidth_byte c
    rw [List.map_cons, List.cons_append, resultOf, if_neg (by simp [charBeat]), hdata, ih, List.append_assoc,
      List.singleton_append]

/-- R59: whatever was sent before it, a final error beat is the result. -/
theorem resultOf_eosErr {bs : List Beat} (h : ∀ b ∈ bs, b.last = false) (cs : List Byte) :
    resultOf (bs ++ [⟨true, .eosErr, 0⟩]) cs = some (.error .endOfStream) := by
  induction bs generalizing cs with
  | nil => rfl
  | cons b bs ih =>
    rw [List.forall_mem_cons] at h
    rw [List.cons_append, resultOf, if_neg (by simp [h.1]), ih h.2]

/-! ### A source that ends -/

/-- R110: RDSTR that delivered its string. -/
theorem exec_rdStr_of_ok {s u : State} (h : readString s = .ok () u) :
    exec .rdStr s = .next (u.log (.beat (okBeat 0))) := by
  rw [exec_eq_respond, operation, h]
  rfl

/-- R110: RDSTR that met the end of the stream. -/
theorem exec_rdStr_of_err {s u : State} (h : readString s = .err .endOfStream u) :
    exec .rdStr s = .next (u.log (.beat (errBeat .endOfStream))) := by
  rw [exec_eq_respond, operation, h]
  rfl

/-- R150, U16: RDSTR that goes no further. -/
theorem exec_rdStr_of_stuck {s : State} {f : Fault} (h : readString s = .stuck f) : exec .rdStr s = .fault f := by
  rw [exec_eq_respond, operation, h]
  rfl

theorem beats_stringEvents (c : Byte) (bs : List Byte) :
    beats (stringEvents c bs) = (c :: bs).map charBeat ++ [okBeat 0] := by
  rw [stringEvents_eq, beats_append, beats_loopEvents]
  rfl

/-- Settles O36: one iteration for each byte, the last of which empties the cursor. -/
theorem alignedRdStrDeliversEveryByte : Obligations.AlignedRdStrDeliversEveryByte := by
  intro s c hc h8 he
  refine ⟨?_, ?_⟩
  · have hs : s.src = ⟨s.src.bytes, .eos⟩ := by rw [← he]
    rw [exec_rdStr_of_ok ((readString_of_byte hc).trans (readStringLoop_of_aligned _ hc h8 hs le_rfl)), stringEvents_eq,
      ← List.append_assoc]
    rfl
  · rw [beats_stringEvents, resultOf_chars]
    rfl

theorem transfers_stringPulls (n : Nat) (c : Byte) (bs : List Byte) :
    transfers (stringPulls n c bs) = bs.length := by
  rw [transfers, pulledBytes_stringPulls, eosAnswers_stringPulls, Nat.add_zero]

/-- Settles O37: one iteration for each byte left, and then a character that the stream cannot fill. -/
theorem midByteRdStrFails : Obligations.MidByteRdStrFails := by
  intro s c hc h1 h7 he
  obtain ⟨h0, h8⟩ := State.n_ne_of_midbyte h1 h7
  refine ⟨?_, ?_, fun b hb => mem_beats_stringPulls hb, transfers_stringPulls _ _ _,
    resultOf_eosErr (fun b hb => (mem_beats_stringPulls hb).1) []⟩
  · have hs : s.src = ⟨s.src.bytes, .eos⟩ := by rw [← he]
    rw [exec_rdStr_of_err ((readString_of_byte hc).trans (readStringLoop_of_midbyte _ hc h0 h8 hs (by omega)))]
    simp [State.log, errBeat, ErrKind.status]
  · rw [beats_stringPulls_length, State.remaining_length hc]
    omega

/-- R111 from a byte-aligned cursor: the characters are the remaining bits in eights. -/
theorem rdStr_chars_of_aligned {s : State} {c : Byte} (hc : s.cur = .byte c) (h8 : s.n = 8) (es : List PortEvent) :
    resultOf ((beats (es ++ stringEvents c s.src.bytes)).drop (beats es).length) [] = some (.chars (c :: s.src.bytes)) ∧
    bytesBits (c :: s.src.bytes) = s.remaining := by
  refine ⟨?_, by rw [State.remaining_of_byte hc, h8]; rfl⟩
  rw [beats_append, List.drop_left, beats_stringEvents, resultOf_chars]
  rfl

/-- Settles O39: an empty cursor fails at once, an aligned one delivers all, and one in the middle of a byte fails at the
end. -/
theorem rdStrSucceedsExactlyWhenAligned : Obligations.RdStrSucceedsExactlyWhenAligned := by
  intro s h hf
  have he := Source.ending_of_finite hf
  rcases s.cur_cases with hc | ⟨c, hc⟩
  · have hn := h.count_of_eos hc
    refine ⟨_, _, exec_rdStr_of_eos hc, finalBeat_log _ _, hc, hn, ?_⟩
    simp [errBeat, ErrKind.status, hc, hn]
  have hlen := State.remaining_length hc
  by_cases h8 : s.n = 8
  · have hv : s.n.val = 8 := congrArg Fin.val h8
    obtain ⟨e, -⟩ := alignedRdStrDeliversEveryByte s c hc h8 he
    refine ⟨_, okBeat 0, e, ?_, rfl, rfl, ?_, ?_, fun hne => absurd rfl hne, fun _ =>
      ⟨_, rdStr_chars_of_aligned hc h8 s.ports⟩⟩
    · simp [State.finalBeat, stringEvents_eq]
    · simp only [okBeat, true_iff]
      exact ⟨by simp [hc], by omega⟩
    · simp [okBeat, h8]
  · have h1 := h.count_of_byte c hc
    have hne : s.n.val ≠ 8 := fun hv => h8 (Fin.ext hv)
    obtain ⟨e, -⟩ := midByteRdStrFails s c hc h1 (by omega) he
    refine ⟨_, ⟨true, .eosErr, 0⟩, e, by simp [State.finalBeat], rfl, rfl, ?_, ?_, fun _ => rfl, nofun⟩
    · simp only [reduceCtorEq, false_iff]
      omega
    · simp [h8]

/-! ### A source that never ends, or falls silent -/

/-- Settles O40: the loop finds a byte at every test. -/
theorem rdStrNeverCompletesOnAnEndlessSource : Obligations.RdStrNeverCompletesOnAnEndlessSource := by
  intro s stream index h hne he
  obtain ⟨c, hc⟩ := s.cur_cases.resolve_left hne
  exact exec_rdStr_of_stuck ((readString_of_byte hc).trans (readStringLoop_of_endless _ hc (h.n_ne_zero hc) he))

/-- Settles O55: the listed bytes are read as on any source, and the pull after them is not answered. -/
theorem silentSourceHangsTheRead : Obligations.SilentSourceHangsTheRead := by
  intro s b hc h0 hs
  refine ⟨fun i k hk hlong => exec_of_takeBits_stuck hk (takeBits_of_silent k hc h0 hs hlong), ?_,
    fun i k hk hshort => ?_⟩
  · have hsrc : s.src = ⟨s.src.bytes, .silent⟩ := by rw [← hs]
    exact exec_rdStr_of_stuck ((readString_of_byte hc).trans (readStringLoop_of_silent _ hc h0 hsrc (by omega)))
  · obtain ⟨t, e, -⟩ := takeBits_of_listed k hc h0 hshort
    refine ⟨_, exec_of_takeBits_ok hk e, ?_⟩
    rw [finalBeat_log, pushBits_zero]
    rfl

end Sys2Proof.Machine
end

section
/-! Statuses and counts (`60_exceptions.md`, `20_memory.md` section 2, `10_state.md` section 2): which status every
command answers with, what the end of the stream leaves, how many pulls are made, and where the stream then stands. -/

namespace Sys2Proof.Machine

/-! ### The status of every command -/

/-- R134: a field succeeds exactly when it has enough bits. -/
theorem expectedStatus_of_field {i : Instr} {k : Nat} (hk : fieldWidth i = some k) (len : Nat) :
    expectedStatus i len = if k ≤ len then .ok else .eosErr := by
  cases i with
  | rdBit | rdChar | rdShort | rdInt => cases hk; rfl
  | rdCharW r =>
    simp only [fieldWidth, charWidthOk_iff, Option.ite_none_right_eq_some, Option.some.injEq] at hk
    obtain ⟨⟨h1, h16⟩, rfl⟩ := hk
    rw [expectedStatus, if_neg (by omega)]
  | rdIntW r =>
    simp only [fieldWidth, intWidthOk_iff, Option.ite_none_right_eq_some, Option.some.injEq] at hk
    obtain ⟨⟨h1, h32⟩, rfl⟩ := hk
    rw [expectedStatus, if_neg (by omega)]
  | existsQ | isEmpty | rdStr => cases hk

theorem expectedStatus_of_badWidth {i : Instr} (hw : badWidth i) (len : Nat) : expectedStatus i len = .widthErr := by
  cases i with
  | rdCharW r => exact if_pos hw
  | rdIntW r => exact if_pos hw
  | existsQ | isEmpty | rdBit | rdChar | rdShort | rdInt | rdStr => exact hw.elim

/-- R134, where infinitely many bits are as good as the widest field's 32. -/
def statusFor (i : Instr) (l : StreamLength) : Status :=
  match l with
  | .finite len => expectedStatus i len
  | .infinite => expectedStatus i 32

theorem statusFor_of_field {i : Instr} {k : Nat} (hk : fieldWidth i = some k) (l : StreamLength) :
    statusFor i l = if l.atLeast k then .ok else .eosErr := by
  have hr := fieldWidth_range hk
  cases l with
  | finite len => simp [statusFor, expectedStatus_of_field hk, StreamLength.atLeast]
  | infinite => simp [statusFor, expectedStatus_of_field hk, StreamLength.atLeast, hr.2]

theorem Source.not_endless_of_finite {src : Source} (h : src.finite = true) (stream index : Nat) :
    src.ending ≠ .endless stream index := by
  simp [Source.ending_of_finite h]

/-- R111, R134: on a source that ends RDSTR succeeds with a whole number of bytes left, one or more. -/
theorem exec_rdStr_status {s : State} (h : s.Inv) (hf : s.src.finite = true) :
    ∃ t b, exec .rdStr s = .next t ∧ t.finalBeat = some b ∧ b.status = statusFor .rdStr s.remainingLength := by
  obtain ⟨t, b, e, hb, -, -, hok, -, herr, -⟩ := rdStrSucceedsExactlyWhenAligned s h hf
  have hnil : s.cur ≠ .eos ↔ s.remaining.length ≠ 0 := by
    rw [ne_eq, ne_eq, List.length_eq_zero_iff, h.remaining_eq_nil]
  refine ⟨t, b, e, hb, ?_⟩
  rw [State.remainingLength_eq_remaining (Source.not_endless_of_finite hf), statusFor, expectedStatus]
  by_cases hal : 8 ≤ s.remaining.length ∧ s.remaining.length % 8 = 0
  · rw [if_pos hal, hok, hnil]
    omega
  · rw [if_neg hal]
    refine herr fun hs => hal ?_
    rw [hok, hnil] at hs
    omega

/-- R134 for every instruction. -/
theorem exec_status_eq {i : Instr} {s : State} (h : s.Inv) (ha : s.src.answers = true)
    (hstr : i = .rdStr → s.src.finite = true) :
    ∃ t b, exec i s = .next t ∧ t.finalBeat = some b ∧ b.status = statusFor i s.remainingLength := by
  rcases instr_kinds i with rfl | rfl | hw | ⟨k, hk⟩ | rfl
  · exact ⟨_, _, exec_existsQ s, finalBeat_log _ _, by cases s.remainingLength <;> rfl⟩
  · exact ⟨_, _, exec_isEmpty s, finalBeat_log _ _, by cases s.remainingLength <;> rfl⟩
  · refine ⟨_, _, exec_badWidth hw s, finalBeat_log _ _, ?_⟩
    cases s.remainingLength <;> simp [statusFor, expectedStatus_of_badWidth hw, errBeat, ErrKind.status]
  · rw [statusFor_of_field hk]
    cases hl : s.remainingLength.atLeast k with
    | true =>
      obtain ⟨u, -, -, -, -, -, e⟩ := exec_field_of_atLeast hk h ha hl
      exact ⟨_, _, e, finalBeat_log _ _, rfl⟩
    | false =>
      obtain ⟨u, -, -, -, -, -, e⟩ := exec_field_of_short hk h ha hl
      exact ⟨_, _, e, finalBeat_log _ _, rfl⟩
  · exact exec_rdStr_status h (hstr rfl)

/-- An instruction's final beat has `last` set, and no data unless its status is OK (R56, R58). -/
theorem exec_finalBeat {i : Instr} {s t : State} {b : Beat} (e : exec i s = .next t) (hb : t.finalBeat = some b) :
    b.last = true ∧ (b.status ≠ .ok → b.data = 0) := by
  obtain ⟨u, c, -, rfl, hlast, hdata, -⟩ := exec_follows e
  rw [eq_of_finalBeat_log hb]
  exact ⟨hlast, hdata⟩

/-- Settles O42: a reserved word has one answer, and an instruction's status is that of the bits it finds. -/
theorem statusOfEveryCommand : Obligations.StatusOfEveryCommand := by
  intro w s h ha hstr
  cases hd : decode w with
  | reserved op => exact ⟨_, _, runWord_of_reserved hd s, finalBeat_log _ _, rfl, rfl⟩
  | instr i =>
    obtain ⟨t, b, e, hb, hs⟩ := exec_status_eq h ha fun hi => hstr (hi ▸ hd)
    refine ⟨t, b, (runWord_of_instr hd s).trans e, hb, (exec_finalBeat e hb).1, hs.trans ?_⟩
    cases s.remainingLength <;> rfl

/-! ### The end of the stream -/

/-- R124: whatever answers EOS_ERR leaves an empty cursor. -/
theorem exec_eosErr_cur {i : Instr} {s t : State} {b : Beat} (h : s.Inv) (e : exec i s = .next t)
    (hb : t.finalBeat = some b) (hs : b.status = .eosErr) : t.cur = .eos := by
  cases exec_answer e with
  | existsQ | isEmpty | badWidth | field | string =>
    rw [eq_of_finalBeat_log hb] at hs
    cases hs
  | noField hk e' => exact (takeBits_err_state e').1
  | noString hi e' =>
    rcases s.cur_cases with hc | ⟨c, hc⟩
    · rw [readString_of_eos hc] at e'
      cases e'
      exact hc
    · rcases readString_cases hc (h.n_ne_zero hc) with ⟨-, -, g⟩ | ⟨-, -, g⟩ | ⟨-, g⟩ | ⟨_, _, -, g⟩ <;>
        rw [g] at e' <;> cases e'
      rfl

/-- R30, R44: a cursor that a command emptied was told EOS, after every byte of the source. -/
theorem exec_emptied {i : Instr} {s t : State} {c : Byte} (h : s.Inv) (hc : s.cur = .byte c) (e : exec i s = .next t)
    (ht : t.cur = .eos) :
    s.src.finite = true ∧ t.src = ⟨[], .eos⟩ ∧ pulledBytes t.ports = pulledBytes s.ports ++ s.src.bytes ∧
      eosAnswers t.ports = 1 ∧ lastAnswer t.ports = some .eos := by
  obtain ⟨hbound, hp⟩ := h.bound_of_byte hc
  obtain ⟨hpr, hbd, -⟩ := instructionFrame i s t e
  have hi := exec_inv h hp e
  have hb' := hbd.trans hbound
  have hp' := hpr.trans hp
  have hsrc := hi.drained hb' hp' ht
  have hlast := hi.cur_is_last_answer hb' hp'
  have heos := hi.eos_once
  rw [hb', hp', (State.isEmpty_iff t).2 ht] at heos
  obtain ⟨hlisted, hendless⟩ := bytesArePulledInSourceOrder i s t e
  have hne : ∀ stream index, s.src.ending ≠ .endless stream index := by
    intro stream index he
    obtain ⟨count, -, hend, -⟩ := hendless stream index he
    simp [hsrc] at hend
  obtain ⟨hpull, hend⟩ := hlisted hne
  rw [hsrc] at hpull hend
  rw [List.append_nil] at hpull
  exact ⟨by rw [Source.finite, ← hend], hsrc, hpull, heos, by rw [hlast, ht]⟩

/-- R45, R124: a field that meets the end of the stream asked for more than was left. -/
theorem field_too_wide {i : Instr} {k : Nat} {s t : State} {b : Beat} (h : s.Inv) (e : exec i s = .next t)
    (hb : t.finalBeat = some b) (hs : b.status = .eosErr) (hk : fieldWidth i = some k) : s.remaining.length < k := by
  rcases s.cur_cases with hc | ⟨c, hc⟩
  · have := fieldWidth_range hk
    rw [State.remaining_of_eos hc, List.length_nil]
    omega
  · obtain ⟨hf, -⟩ := exec_emptied h hc e (exec_eosErr_cur h e hb hs)
    by_contra hle
    obtain ⟨u, e', -⟩ := takeBits_of_le k h hf (Nat.not_lt.1 hle)
    rw [exec_of_takeBits_ok hk e', Host.Outcome.next.injEq] at e
    subst e
    rw [eq_of_finalBeat_log hb] at hs
    cases hs

/-- R44: on an empty cursor the state gains the final beat and nothing else. -/
theorem exec_of_eos_eq {i : Instr} {s t : State} {b : Beat} (hc : s.cur = .eos) (e : exec i s = .next t)
    (hb : t.finalBeat = some b) : t = s.log (.beat b) := by
  rw [exhaustedCursorAnswersEveryCommand i s hc, Host.Outcome.next.injEq] at e
  subst e
  rw [eq_of_finalBeat_log (u := s) hb]
  rfl

/-- Settles O43: on an empty cursor only the beat is added; else the command emptied the cursor, which takes the EOS
answer of a source with nothing left. -/
theorem eosErrorLeavesNothing : Obligations.EosErrorLeavesNothing := by
  intro i s t b h e hb hs
  have hbound := (instructionFrame i s t e).2.1
  have hcur := exec_eosErr_cur h e hb hs
  refine ⟨hcur, ?_, hbound, fun k hk => field_too_wide h e hb hs hk, fun hc => ?_, fun hc => ?_⟩
  · rcases s.cur_cases with hc | ⟨c, hc⟩
    · rw [exec_of_eos_eq hc e hb]
      exact h.count_of_eos hc
    · exact (exec_inv h (h.bound_of_byte hc).2 e).count_of_eos hcur
  · obtain ⟨hlast, hdata⟩ := exec_finalBeat e hb
    have hbeat : b = ⟨true, .eosErr, 0⟩ := by
      rcases b with ⟨last, status, data⟩
      simp_all
    rw [exec_of_eos_eq hc e hb, hbeat]
    rfl
  · obtain ⟨c, hc⟩ := s.cur_cases.resolve_left hc
    exact (exec_emptied h hc e hcur).2

end Sys2Proof.Machine
end

section
/-! Pulls and the stream position (`20_memory.md` section 2, `10_state.md` section 2). -/

namespace Sys2Proof.Machine

/-! ### Pulls -/

/-- Settles O20: with a byte buffered no EOS was answered, and an emptied cursor was told it once. -/
theorem lookaheadIsOneByte : Obligations.LookaheadIsOneByte := by
  intro s h hp
  refine ⟨fun b hc => ?_, fun hb hc => ?_, fun hb => ?_⟩
  · have h1 := h.one_le_pulled hc
    have hn := h.count_of_byte b hc
    have hlt := s.n.isLt
    refine ⟨?_, by rw [transfers, h.eosAnswers_of_byte hc]; rfl⟩
    rw [State.pos]
    omega
  · have heos := h.eos_once
    rw [hb, hp, (State.isEmpty_iff s).2 hc] at heos
    exact ⟨by rw [State.pos, h.count_of_eos hc]; rfl, by rw [transfers, heos]; rfl, h.drained hb hp hc⟩
  · obtain ⟨-, htr⟩ := h.unbound hb
    have hle : s.pulled ≤ transfers s.ports := Nat.le_add_right _ _
    exact ⟨htr, by omega⟩

/-- R35: the rows of the table are one formula, for a count of 1 to 8. -/
theorem expectedPulls_of_field {i : Instr} {k n : Nat} (hk : fieldWidth i = some k) (h1 : 1 ≤ n) (h8 : n ≤ 8) :
    expectedPulls i n = some ((k + 8 - n) / 8) := by
  cases i with
  | rdBit =>
    cases hk
    rw [expectedPulls]
    congr 1
    split <;> omega
  | rdChar | rdShort | rdInt =>
    cases hk
    rw [expectedPulls]
    congr 1
    omega
  | rdCharW r =>
    simp only [fieldWidth, Option.ite_none_right_eq_some, Option.some.injEq] at hk
    rw [expectedPulls, hk.2]
  | rdIntW r =>
    simp only [fieldWidth, Option.ite_none_right_eq_some, Option.some.injEq] at hk
    rw [expectedPulls, hk.2]
  | existsQ | isEmpty | rdStr => cases hk

/-- R110: what a string that was delivered found and logged: an aligned cursor, and each byte of the source. -/
theorem readString_ok {s u : State} (h : s.Inv) (e : readString s = .ok () u) :
    ∃ c, s.cur = .byte c ∧ s.n = 8 ∧ u.n = 0 ∧ u.ports = s.ports ++ loopEvents c s.src.bytes := by
  rcases s.cur_cases with hc | ⟨c, hc⟩
  · rw [readString_of_eos hc] at e
    cases e
  · rcases readString_cases hc (h.n_ne_zero hc) with ⟨-, h8, g⟩ | ⟨-, -, g⟩ | ⟨-, g⟩ | ⟨_, _, -, g⟩ <;>
      rw [g] at e <;> cases e
    exact ⟨c, hc, h8, rfl, rfl⟩

/-- R35 for the string: one pull for each character, that is each data beat. -/
theorem readString_counts {s u : State} (h : s.Inv) (e : readString s = .ok () u) :
    transfers u.ports = transfers s.ports + (s.src.bytes.length + 1) ∧
    (beats u.ports).length = (beats s.ports).length + (s.src.bytes.length + 1) := by
  obtain ⟨c, -, -, -, hports⟩ := readString_ok h e
  rw [hports, transfers_append, transfers_loopEvents, beats_append, List.length_append, beats_loopEvents]
  simp

/-- R35: the pulls of a field that was read, or was too wide. -/
theorem field_pulls {i : Instr} {k p : Nat} {s t : State} {b : Beat} (h : s.Inv) (hk : fieldWidth i = some k)
    (e : exec i s = .next t) (hb : t.finalBeat = some b) (hp : expectedPulls i s.n.val = some p) :
    (b.status = .ok → transfers t.ports = transfers s.ports + p) ∧
    (b.status = .eosErr → transfers t.ports ≤ transfers s.ports + p) := by
  rcases s.cur_cases with hc | ⟨c, hc⟩
  · obtain rfl := exec_of_eos_eq hc e hb
    rw [exec_field_of_eos hk hc, Host.Outcome.next.injEq] at e
    rw [← e] at hb
    have hs : b.status = .eosErr := congrArg Beat.status (eq_of_finalBeat_log hb)
    rw [State.log_ports, transfers_append_beat, hs]
    exact ⟨nofun, fun _ => Nat.le_add_right _ _⟩
  · have hp' := expectedPulls_of_field hk (h.count_of_byte c hc) (Nat.le_of_lt_succ s.n.isLt)
    rw [hp', Option.some.injEq] at hp
    subst hp
    obtain ⟨hok, herr⟩ := takeBits_transfers k h
    rcases exec_field_answer hk e with ⟨bs, u, e', rfl⟩ | ⟨u, e', rfl⟩ <;>
      rw [eq_of_finalBeat_log hb, State.log_ports, transfers_append_beat]
    · exact ⟨fun _ => hok bs u c hc e', nofun⟩
    · exact ⟨nofun, fun _ => herr _ u e'⟩

/-- Settles O19: only fields and strings pull, a field by `takeBits_transfers`, a string once for each character. -/
theorem pullCounts : Obligations.PullCounts := by
  intro i s t b h e hb
  have quiet : ∀ c : Beat, transfers (s.log (.beat c)).ports = transfers s.ports := fun c =>
    transfers_append_beat _ c
  cases exec_answer e with
  | existsQ hi | isEmpty hi =>
    subst hi
    refine ⟨fun k hk => ?_, nofun⟩
    cases hk
    exact ⟨fun _ => quiet _, fun _ => (quiet _).le, fun _ => quiet _⟩
  | badWidth hw =>
    rw [eq_of_finalBeat_log hb]
    exact ⟨fun _ _ => ⟨nofun, nofun, fun _ => quiet _⟩, fun _ => nofun⟩
  | field hk e' =>
    refine ⟨fun p hp => ?_, fun hi => by subst hi; cases hk⟩
    obtain ⟨hok, herr⟩ := field_pulls h hk e hb hp
    exact ⟨hok, herr, by rw [eq_of_finalBeat_log hb]; nofun⟩
  | noField hk e' =>
    refine ⟨fun p hp => ?_, fun hi => by subst hi; cases hk⟩
    obtain ⟨hok, herr⟩ := field_pulls h hk e hb hp
    exact ⟨hok, herr, by rw [eq_of_finalBeat_log hb]; nofun⟩
  | string hi e' =>
    subst hi
    refine ⟨nofun, fun _ _ => ?_⟩
    obtain ⟨htr, hbe⟩ := readString_counts h e'
    rw [State.log_ports, transfers_append_beat, beats_append, List.length_append, htr, hbe]
    simp [beats]
  | noString hi e' =>
    subst hi
    rw [eq_of_finalBeat_log hb]
    exact ⟨nofun, fun _ => nofun⟩

/-! ### The stream position -/

@[simp] theorem State.log_beat_pulled (s : State) (b : Beat) : (s.log (.beat b)).pulled = s.pulled := by
  simp [State.pulled, pulledBytes_append, pulledBytes]

@[simp] theorem State.log_beat_pos (s : State) (b : Beat) : (s.log (.beat b)).pos = s.pos := by
  simp [State.pos]

/-- R15: no more bits are unread than were pulled. -/
theorem State.Inv.n_le_pulled {s : State} (h : s.Inv) : s.n.val ≤ 8 * s.pulled := by
  rcases s.cur_cases with hc | ⟨c, hc⟩
  · rw [h.count_of_eos hc]
    exact Nat.zero_le _
  · have := h.one_le_pulled hc
    have := s.n.isLt
    omega

/-- R15, R124: a command that meets the end of the stream takes every bit that was left. -/
theorem pos_of_eosErr {i : Instr} {s t : State} {b : Beat} (h : s.Inv) (e : exec i s = .next t)
    (hb : t.finalBeat = some b) (hs : b.status = .eosErr) :
    t.pos = s.pos + s.remaining.length ∧ t.pos = 8 * t.pulled := by
  obtain ⟨-, hn, -, -, -, hemptied⟩ := eosErrorLeavesNothing i s t b h e hb hs
  have ht : t.pos = 8 * t.pulled := by rw [State.pos, hn]; rfl
  refine ⟨?_, ht⟩
  rcases s.cur_cases with hc | ⟨c, hc⟩
  · rw [exec_of_eos_eq hc e hb, State.remaining_of_eos hc]
    simp
  · obtain ⟨-, hpull, -⟩ := hemptied (by simp [hc])
    have hle := h.n_le_pulled
    have hpulled : t.pulled = s.pulled + s.src.bytes.length := by
      rw [State.pulled, hpull, List.length_append]
      rfl
    rw [ht, hpulled, State.pos, State.remaining_length hc]
    omega

theorem pulledBytes_loopEvents (c : Byte) (bs : List Byte) : pulledBytes (loopEvents c bs) = bs := by
  induction bs generalizing c with
  | nil => rfl
  | cons b bs ih => simp [loopEvents, pulledBytes, ih]

/-- R15, R112: a string takes eight bits for each of its characters. -/
theorem pos_of_string {s u : State} (h : s.Inv) (e : readString s = .ok () u) :
    u.pos = s.pos + 8 * (s.src.bytes.length + 1) := by
  obtain ⟨c, hc, h8, hn, hports⟩ := readString_ok h e
  have hle := h.n_le_pulled
  have hpulled : u.pulled = s.pulled + s.src.bytes.length := by
    rw [State.pulled, hports, pulledBytes_append, List.length_append, pulledBytes_loopEvents]
    rfl
  have hv : s.n.val = 8 := congrArg Fin.val h8
  rw [State.pos, State.pos, hn, hpulled]
  simp only [Fin.val_zero]
  omega

theorem fieldWidth_of_badWidth {i : Instr} (hw : badWidth i) : fieldWidth i = none := by
  cases i with
  | rdCharW r => exact if_neg (by rw [charWidthOk_iff]; simp only [badWidth] at hw; omega)
  | rdIntW r => exact if_neg (by rw [intWidthOk_iff]; simp only [badWidth] at hw; omega)
  | existsQ | isEmpty | rdBit | rdChar | rdShort | rdInt | rdStr => exact hw.elim

/-- R15: a field that was read moves the position by its width. -/
theorem pos_of_field {i : Instr} {k : Nat} {s t : State} {b : Beat} (h : s.Inv) (hk : fieldWidth i = some k)
    (e : exec i s = .next t) (hb : t.finalBeat = some b) (hs : b.status = .ok) : t.pos = s.pos + k := by
  rcases exec_field_answer hk e with ⟨bs, u, e', rfl⟩ | ⟨u, -, rfl⟩
  · rw [State.log_beat_pos, takeBits_pos h e']
  · rw [eq_of_finalBeat_log hb] at hs
    cases hs

/-- R110: RDSTR answers OK only with a string delivered. -/
theorem exec_rdStr_ok {s t : State} {b : Beat} (e : exec .rdStr s = .next t) (hb : t.finalBeat = some b)
    (hs : b.status = .ok) : ∃ u, readString s = .ok () u ∧ t = u.log (.beat (okBeat 0)) := by
  cases exec_answer e with
  | existsQ hi | isEmpty hi => cases hi
  | badWidth hw => exact hw.elim
  | field hk | noField hk => cases hk
  | string _ e' => exact ⟨_, e', rfl⟩
  | noString =>
    rw [eq_of_finalBeat_log hb] at hs
    cases hs

/-- R15: the last beat of a string carries no character. -/
theorem pos_of_rdStr {s t : State} {b : Beat} (h : s.Inv) (e : exec .rdStr s = .next t) (hb : t.finalBeat = some b)
    (hs : b.status = .ok) :
    s.pos ≤ t.pos ∧ t.pos + 8 = s.pos + 8 * ((beats t.ports).length - (beats s.ports).length) := by
  obtain ⟨u, e', rfl⟩ := exec_rdStr_ok e hb hs
  have hpos := pos_of_string h e'
  obtain ⟨-, hbe⟩ := readString_counts h e'
  have hlast : (beats (u.log (.beat (okBeat 0))).ports).length = (beats u.ports).length + 1 := by
    rw [State.log_ports, beats_append, List.length_append]
    rfl
  rw [State.log_beat_pos, hlast]
  omega

/-- R15: what reads no field and no string leaves the position. -/
theorem pos_of_no_read {i : Instr} {s t : State} (e : exec i s = .next t) (hk : fieldWidth i = none) (hi : i ≠ .rdStr) :
    t.pos = s.pos := by
  cases exec_answer e with
  | existsQ | isEmpty | badWidth => exact State.log_beat_pos _ _
  | field hk' | noField hk' => simp [hk] at hk'
  | string hi' | noString hi' => exact absurd hi' hi

/-- Settles O49: the position moves by the bits that were taken: the width of a field, eight for each character of a
string, what was left at the end of the stream, and none otherwise. -/
theorem streamPosition : Obligations.StreamPosition := by
  refine ⟨fun w s t op hd e => ?_, fun i s t b h e hb => ?_⟩
  · rw [runWord_of_reserved hd] at e
    cases e
    exact State.log_beat_pos _ _
  have field (k : Nat) (hk : fieldWidth i = some k) (hs : b.status = .ok) := pos_of_field h hk e hb hs
  have string (hi : i = .rdStr) (hs : b.status = .ok) := pos_of_rdStr (b := b) h (hi ▸ e) hb hs
  have short (hs : b.status = .eosErr) := pos_of_eosErr h e hb hs
  have width (hs : b.status = .widthErr) : t.pos = s.pos := by
    rcases exec_status e hb with hok | heos | ⟨-, hw⟩
    · simp [hs] at hok
    · simp [hs] at heos
    · exact pos_of_no_read e (fieldWidth_of_badWidth hw) (by rintro rfl; exact hw)
  have never_falls : s.pos ≤ t.pos := by
    rcases exec_status e hb with hok | heos | ⟨hw, -⟩
    · cases hk : fieldWidth i with
      | some k => rw [field k hk hok]; exact Nat.le_add_right _ _
      | none =>
        by_cases hi : i = .rdStr
        · exact (string hi hok).1
        · exact (pos_of_no_read e hk hi).ge
    · rw [(short heos).1]; exact Nat.le_add_right _ _
    · exact (width hw).ge
  exact ⟨never_falls, field, fun hi hs => (string hi hs).2, fun hk hi => pos_of_no_read e hk hi, width,
    fun hc => by rw [exec_of_eos_eq hc e hb, State.log_beat_pos], short⟩

end Sys2Proof.Machine
end

section
/-! A reset in the middle of a command (`70_reset_and_hazards.md` section 1): what is left of the command's log, and what
the source has lost. -/

namespace Sys2Proof.Machine

/-- What a command's log holds before its final beat, or when it hangs, on a source that is not endless: what can cross
the ports inside a command, and the source's first bytes in order. -/
theorem unfinishedLog_runWord {w : CmdWord} {s : State} {log : List PortEvent}
    (he : ∀ stream index, s.src.ending ≠ .endless stream index) (h : unfinishedLog (runWord w s) = .next log) :
    ∃ es, log = s.ports ++ es ∧ (∀ e ∈ es, e.inside) ∧ pulledBytes es <+: s.src.bytes := by
  cases hd : decode w with
  | instr i =>
    rw [runWord_of_instr hd, exec_eq_respond, unfinishedLog_respond] at h
    obtain ⟨es, rest, hlog, hinside, hbytes⟩ := operation_logged he h
    exact ⟨es, hlog, hinside, rest, hbytes⟩
  | reserved op =>
    rw [runWord_of_reserved hd, unfinishedLog, Host.Outcome.next.injEq] at h
    exact ⟨[], by rw [← h]; simp, nofun, List.nil_prefix⟩

/-- The first `k` transactions of a command on the source cut after `k` bytes are those on the whole source. -/
theorem unfinishedLog_cut {w : CmdWord} {s : State} {k : Nat} {log whole : List PortEvent}
    (h : unfinishedLog (runWord w (s.cut k)) = .next log) (hw : unfinishedLog (runWord w s) = .next whole) :
    log.take (s.ports.length + k) = whole.take (s.ports.length + k) := by
  cases hd : decode w with
  | instr i =>
    rw [runWord_of_instr hd, exec_eq_respond, unfinishedLog_respond] at h hw
    exact operation_logged_cut h hw
  | reserved op =>
    rw [runWord_of_reserved hd, unfinishedLog, Host.Outcome.next.injEq] at h hw
    rw [← h, ← hw]
    rfl

/-- What is left of an abandoned command: at most `events` transactions `es` of its run on the cut source, of which the
bytes pulled are gone. -/
theorem abandon_log {w : CmdWord} {events : Nat} {p : ResetPulse} {s t : State}
    (h : abandon (runWord w) events p s = .next t) :
    ∃ log es, unfinishedLog (runWord w (s.cut events)) = .next log ∧
      log.take (s.ports.length + events) = s.ports ++ es ∧ es.length ≤ events ∧ (∀ e ∈ es, e.inside) ∧
      pulledBytes es <+: (s.src.cut events).bytes ∧
      t = resetBlock p { s with ports := s.ports ++ es, src := s.src.skip (pulledBytes es).length } := by
  obtain ⟨log, hl, rfl⟩ := abandon_next h
  obtain ⟨es, rfl, hinside, hbytes⟩ := unfinishedLog_runWord (s.src.cut_not_endless events) hl
  have htake : ((s.cut events).ports ++ es).take (s.ports.length + events) = s.ports ++ es.take events :=
    List.take_length_add_append events
  refine ⟨_, es.take events, hl, htake, List.length_take_le _ _, fun e he => hinside e (List.mem_of_mem_take he),
    (pulledBytes_take_prefix es events).trans hbytes, ?_⟩
  rw [htake, pulledBytes_append, List.length_append, Nat.add_sub_cancel_left]

/-- The transactions that are left are the first ones of what the command does undisturbed. -/
theorem abandoned_eq_take {w : CmdWord} {s : State} {events : Nat} {log es whole : List PortEvent}
    (h : unfinishedLog (runWord w (s.cut events)) = .next log)
    (hes : log.take (s.ports.length + events) = s.ports ++ es)
    (hw : unfinishedLog (runWord w s) = .next whole) : es = (whole.drop s.ports.length).take events := by
  have hcut := unfinishedLog_cut h hw
  rw [hes] at hcut
  have hdrop := congrArg (List.drop s.ports.length) hcut
  rwa [List.drop_left, List.drop_take, Nat.add_sub_cancel_left] at hdrop

/-- R114, R142: RDSTR on an endless source, cut after `events` bytes, has made a pull and sent a beat for each of them. -/
theorem abandoned_rdStr_endless {s : State} {c : Byte} {events stream index : Nat} {log es : List PortEvent}
    (h : unfinishedLog (exec .rdStr (s.cut events)) = .next log)
    (hes : log.take (s.ports.length + events) = s.ports ++ es) (hc : s.cur = .byte c) (h0 : s.n ≠ 0)
    (he : s.src.ending = .endless stream index) :
    es = (stringPulls s.n.val c (s.src.bytes ++ freeBytes stream index events)).take events := by
  have hcut : s.src.cut events = ⟨(s.src.bytes ++ freeBytes stream index events).take events, .silent⟩ := by
    rw [← Source.cut_endless, ← he]
  have hlog : log = s.ports ++ stringPulls s.n.val c ((s.src.bytes ++ freeBytes stream index events).take events) := by
    have hsilent := (silentSourceHangsTheRead (s.cut events) c hc h0 (by rw [State.cut_src, hcut])).2.1
    rw [hsilent, unfinishedLog, Host.Outcome.next.injEq, State.cut_src, hcut] at h
    exact h.symm
  obtain ⟨more, hmore⟩ := stringPulls_take s.n.val c (s.src.bytes ++ freeBytes stream index events) events
  have hlen : events ≤
      (stringPulls s.n.val c ((s.src.bytes ++ freeBytes stream index events).take events)).length := by
    rw [length_stringPulls, List.length_take, List.length_append, length_freeBytes]
    omega
  rw [hlog, List.take_length_add_append] at hes
  rw [← List.append_cancel_left hes, ← hmore, List.take_append_of_le_length hlen]

/-- Settles O14: a reset in the middle of a command runs it on the source cut after as many bytes as transactions, on
which it does what it does on the whole source for as many transactions, and always completes or hangs. -/
theorem resetInTheMiddleOfACommand : Obligations.ResetInTheMiddleOfACommand := by
  intro s w events p rest hp hin
  rw [step_of_resetInCmd hp hin]
  refine ⟨fun h => abandon_runWord_completes w events p (h.accept hp w rest), fun t ht => ?_⟩
  obtain ⟨log, es, hl, hes, hlen, hinside, hbytes, rfl⟩ := abandon_log ht
  have hports : (s.accept w rest).ports.length = s.ports.length + 1 := by simp
  refine ⟨rfl, rfl, rfl, rfl, rfl, rfl, es, by simp, hlen, fun e he => ?inside, fun u hu => ?completed,
    fun q hq => ?hung, fun c stream index hd hc h0 he => ?endless, fun src hsrc => by simp [hsrc], fun hkept => ?kept⟩
  case inside =>
    have := hinside e he
    cases e with
    | pull a => trivial
    | beat b => exact this.1
    | cmd v => exact this
  case completed =>
    have hw : unfinishedLog (runWord w (s.accept w rest)) = .next u.ports.dropLast :=
      congrArg unfinishedLog hu
    rw [abandoned_eq_take hl hes hw, hports, List.dropLast_drop_eq_drop_dropLast]
  case hung =>
    have hw : unfinishedLog (runWord w (s.accept w rest)) = .next q := congrArg unfinishedLog hq
    rw [abandoned_eq_take hl hes hw, hports]
  case endless =>
    rw [runWord_of_instr hd] at hl
    exact abandoned_rdStr_endless (s := s.accept w rest) hl hes hc h0 he
  case kept =>
    have htaken := Source.skip_taken s.src ((pulledBytes_length_le es).trans hlen) hbytes
    simpa [hkept] using htaken

end Sys2Proof.Machine
end
